-- ==== Sys2Proof/Word.lean ====
section
/-! DEFINITION. The widths of 00_scope.md rule R12: bytes, buffer indices, declared lengths and the packed words. -/

namespace Sys2Proof

/-- The 8-bit data path: a wire byte, a decoded byte, or the accumulator (R12). -/
abbrev Byte := BitVec 8

/-- A frame-buffer index, a frame length, or the bytes-remaining count: 17 bits (R12). -/
abbrev Index := BitVec 17

/-- The declared length L: 16 bits (R12). -/
abbrev Length := BitVec 16

/-- The input word `IW`, 13 bits (R60). -/
abbrev InputWord := BitVec 13

/-- The decode word `EW`, 16 bits (R61). -/
abbrev OpWord := BitVec 16

/-- One word of the status view, 32 bits (R39). -/
abbrev StatusWord := BitVec 32

end Sys2Proof
end

