-- ==== Sys2Proof/Config.lean ====
section
/-! DEFINITION. The fixed parameters of 00_scope.md section 4. `SYNC_HUNT`, the one build parameter, is a field of
State (log 3); `N_PIPELINES` is the argument of `Platform` (log 14). The literals are the source document's and
unaudited (92_eei_decisions.md D30; log 16, UNVERIFIED). -/

namespace Sys2Proof.Config

/-- `KEY = 0x31`, the codec's fixed key (R7). -/
def key : Byte := 0x31#8

/-- `SYNC_VALUE = 0xFF`, the value of a SYNC byte (R8). -/
def syncValue : Byte := 0xFF#8

/-- `FB_DEPTH = 65541` bytes, the longest frame the length fields can declare (R9). -/
def fbDepth : Nat := 65541

/-- The default of the build parameter `SYNC_HUNT` (R10). -/
def syncHuntDefault : Bool := false

end Sys2Proof.Config
end

