-- ==== Sys2Proof/Syntax.lean ====
section
/-! DEFINITION. The operations of 30_encoding.md rule R62, one constructor of `Instr` per row of
spec/opcode_table.json, each with the bits of `EW` its row leaves free (the letters of the row's encoding, in the
table's order). The values an operation works on (`in_data`, `codec_en`, registers) are pins and registers of the
state, as the 'Operands' line of its rule says; `EW` holds conditions on them, not the values. -/

namespace Sys2Proof

/-- The fourteen operations by name, in the row order of R62. -/
inductive Op where
  | reset
  | endClean
  | endMalformed
  | ack
  | huntDiscard
  | byteSync
  | byteSel
  | byteLenShort
  | byteLenEsc
  | byteExth
  | byteExtl
  | byteBody
  | byteCk
  | nop
deriving DecidableEq, Repr

/-- One decoded operation word. The letters are those of R61: `h` is `SYNC_HUNT`, `m` is `d == SYNC_VALUE`, `z` is
`d == 0x00`, `t` is `rem == 1`, `s` is `st`, `a` is `frame_ack`, `v` is `in_valid`, `e` is `src_end`, `r` is `rst`. -/
inductive Instr where
  /-- Row 1, `0000hmztssssave1` (R110). -/
  | reset (h m z t : Bool) (s : BitVec 4) (a v e : Bool)
  /-- Row 2, `0000hmzt0000av10` (R90). -/
  | endClean (h m z t a v : Bool)
  /-- Row 3, `0000hmzt1sssav10` (R91). -/
  | endMalformed (h m z t : Bool) (s : BitVec 3) (a v : Bool)
  /-- Row 4, `0000hmzt00101ve0` (R92). -/
  | ack (h m z t v e : Bool)
  /-- Row 5, `000010zt0000a100` (R72). -/
  | huntDiscard (z t a : Bool)
  /-- Row 6, `0000hmzt0000a100` (R73). -/
  | byteSync (h m z t a : Bool)
  /-- Row 7, `0000hmzt1000a100` (R74). -/
  | byteSel (h m z t a : Bool)
  /-- Row 8, `0000hm0t1001a100` (R75). -/
  | byteLenShort (h m t a : Bool)
  /-- Row 9, `0000hm1t1001a100` (R76). -/
  | byteLenEsc (h m t a : Bool)
  /-- Row 10, `0000hmzt1010a100` (R77). -/
  | byteExth (h m z t a : Bool)
  /-- Row 11, `0000hmzt1011a100` (R78). -/
  | byteExtl (h m z t a : Bool)
  /-- Row 12, `0000hmz01100a100` (R79). -/
  | byteBody (h m z a : Bool)
  /-- Row 13, `0000hmz11100a100` (R80). -/
  | byteCk (h m z a : Bool)
  /-- Row 14, `0000hmztssssaver` (R93). -/
  | nop (h m z t : Bool) (s : BitVec 4) (a v e r : Bool)
deriving DecidableEq, Repr

/-- The operation an instruction word stands for. -/
def Instr.op : Instr → Op
  | .reset .. => .reset
  | .endClean .. => .endClean
  | .endMalformed .. => .endMalformed
  | .ack .. => .ack
  | .huntDiscard .. => .huntDiscard
  | .byteSync .. => .byteSync
  | .byteSel .. => .byteSel
  | .byteLenShort .. => .byteLenShort
  | .byteLenEsc .. => .byteLenEsc
  | .byteExth .. => .byteExth
  | .byteExtl .. => .byteExtl
  | .byteBody .. => .byteBody
  | .byteCk .. => .byteCk
  | .nop .. => .nop

end Sys2Proof
end

