-- ==== Sys2Proof/Machine/State.lean ====
section
/-! DEFINITION. The state of the FSR (10_state.md), the input pins (30_encoding.md rule R60), the reasons a step or a
buffer read can stop, and the state after reset (R33). -/

namespace Sys2Proof.Machine

/-- The frame-assembly state `st` (R19). The reserved encodings of R20 are left out of the type (93 U4; log 5). -/
inductive St where
  /-- `0000`: at a frame boundary; the next accepted byte is byte 0. -/
  | idle
  /-- `0001`: the source has ended; no byte is accepted until reset. -/
  | stopped
  /-- `0010`: a complete frame is held for the consumer. -/
  | done
  /-- `1000`: the next accepted byte is byte 1 (selector). -/
  | sel
  /-- `1001`: the next accepted byte is byte 2 (length or escape). -/
  | len
  /-- `1010`: the next accepted byte is byte 3 (`EXT_LEN` high byte). -/
  | exth
  /-- `1011`: the next accepted byte is byte 4 (`EXT_LEN` low byte). -/
  | extl
  /-- `1100`: the next accepted byte is a body byte or the checksum byte. -/
  | body
deriving DecidableEq, Repr

/-- The levels of the input lines in one cycle (R60). `raddr` is `fb_raddr`; it feeds only the read port. -/
structure Pins where
  inData : Byte
  inValid : Bool
  srcEnd : Bool
  frameAck : Bool
  codecEn : Bool
  rst : Bool
  raddr : Index
deriving DecidableEq, Repr

/-- All lines low. -/
def Pins.low : Pins :=
  { inData := 0#8, inValid := false, srcEnd := false, frameAck := false, codecEn := false, rst := false, raddr := 0#17 }

/-- The written bytes of the frame buffer as (index, byte) pairs, indices strictly rising; an unlisted index is
unwritten and holds no value (R31, 93 U1; log 6). -/
abbrev Memory := List Host.Cell

/-- The state of one FSR. -/
structure State where
  /-- `st`, the frame-assembly state (R19). -/
  st : St
  /-- `cx`, the codec flag latched for the frame (R21). -/
  cx : Bool
  /-- `idx`, the number of bytes of the frame stored so far (R22). -/
  idx : Index
  /-- `plen`, the declared length L (R23). -/
  plen : Length
  /-- `rem`, the number of bytes still to accept in `BODY` (R24). -/
  rem : Index
  /-- `ext`, 1 for the extended form (R25). -/
  ext : Bool
  /-- `acc`, the running checksum (R26). -/
  acc : Byte
  /-- `sync_ok`, 1 when decoded byte 0 was 0xFF (R27). -/
  syncOk : Bool
  /-- `malformed`, sticky (R28). -/
  malformed : Bool
  /-- `tst`, the value of `st` when a MalformedFrame was raised; `idle` stands for `0000` (R29; log 5). -/
  tst : St
  /-- `FB`, the frame buffer (R30). -/
  fb : Memory
  /-- `SYNC_HUNT`, the build parameter (R10), written by nothing (log 3). -/
  hunt : Bool
  /-- The model's own: the input levels sampled at the next rising edge (R60; log 1). -/
  pins : Pins
  /-- The model's own: the input levels of the cycles after it, first cycle first (log 1, 2). -/
  stim : List Pins
deriving DecidableEq, Repr

/-- Why the model stops with an error. Both come from 93_implementation_defined.md. -/
inductive Fault where
  /-- A buffer read of a byte not written since reset (R43, U1), raised by the read port. Safe: the hardware gives an
  unspecified byte. -/
  | unwrittenByte (index : Nat)
  /-- A buffer read (R43, U2) at an index that does not exist, raised by the read port, or a buffer write there,
  raised by `memWrite`, which no reachable state makes (R81; log 7). Safe. -/
  | noSuchByte (index : Nat)
deriving DecidableEq, Repr

/-- Why the model has no answer. -/
inductive Refusal where
  /-- Raised by an arm of exec for an instruction without a meaning; no arm of this model raises it. Safe. -/
  | notModelled (mnemonic : String)
  /-- The decode word of the cycle has nonzero reserved bits (R61), raised by `step`; no state builds such a word.
  Safe. -/
  | reservedDecodeWord
deriving DecidableEq, Repr

/-- The state right after reset (R33) of an FSR built with `SYNC_HUNT = h`: every register at the value R33 states,
every buffer byte unwritten, every input low and no later input given (log 15). -/
def State.resetOf (h : Bool) : State :=
  { st := .idle, cx := false, idx := 0#17, plen := 0x0000#16, rem := 0#17, ext := false, acc := 0x00#8,
    syncOk := false, malformed := false, tst := .idle, fb := [], hunt := h, pins := .low, stim := [] }

/-- The state right after reset (R33), with the build parameter at its default (R10). -/
def State.reset : State := .resetOf Config.syncHuntDefault

end Sys2Proof.Machine
end

