-- ==== Sys2Proof/Machine/Ops.lean ====
section
/-! DEFINITION. The named operations over the state: the encodings of `st`, the frame buffer's access primitives
(20_memory.md), the acceptance of a byte (R34), raising MalformedFrame and the reset that leaves `STOPPED`
(60_exceptions.md), and what the outside drives in the next cycle. -/

namespace Sys2Proof.Machine

/-! ### Encodings -/

/-- The 4-bit encoding of `st` (R19). -/
def St.code : St → BitVec 4
  | .idle => 0b0000#4
  | .stopped => 0b0001#4
  | .done => 0b0010#4
  | .sel => 0b1000#4
  | .len => 0b1001#4
  | .exth => 0b1010#4
  | .extl => 0b1011#4
  | .body => 0b1100#4

/-- The state of an encoding; a reserved encoding (R20) names none. -/
def St.ofCode (c : BitVec 4) : Option St :=
  [St.idle, .stopped, .done, .sel, .len, .exth, .extl, .body].find? (fun st => st.code == c)

/-- Bit 3 of the encoding: one of the five mid-frame states (R19). -/
def St.midFrame (st : St) : Bool := st.code.getLsbD 3

/-- `st == IDLE or st[3] == 1`: the state part of `in_ready` (R34, and `ACC_ST` of R39). -/
def St.receiving (st : St) : Bool := st == .idle || st.midFrame

/-- The input word `{rst, codec_en, frame_ack, src_end, in_valid, in_data}` (R60, R64). -/
def Pins.toWord (p : Pins) : InputWord :=
  BitVec.ofBool p.rst ++ BitVec.ofBool p.codecEn ++ BitVec.ofBool p.frameAck ++ BitVec.ofBool p.srcEnd ++
    BitVec.ofBool p.inValid ++ p.inData

/-- The levels an input word stands for (R60), with the read index beside it. -/
def Pins.ofWord (w : InputWord) (raddr : Index) : Pins :=
  { inData := w.extractLsb' 0 8, inValid := w.getLsbD 8, srcEnd := w.getLsbD 9, frameAck := w.getLsbD 10,
    codecEn := w.getLsbD 11, rst := w.getLsbD 12, raddr := raddr }

/-! ### The frame buffer -/

/-- The byte at index `i`, none where nothing has been written since reset (R31). -/
def Memory.read : Memory → Nat → Option Byte
  | [], _ => none
  | (j, b) :: rest, i => if j = i then some b else Memory.read rest i

/-- `FB[i] <- v`, the indices kept strictly rising (R42, R44). -/
def Memory.write : Memory → Nat → Byte → Memory
  | [], i, v => [(i, v)]
  | (j, b) :: rest, i, v =>
    if i < j then (i, v) :: (j, b) :: rest
    else if i = j then (i, v) :: rest
    else (j, b) :: Memory.write rest i v

/-- The canonical form: indices strictly rising, each an index that exists (R40). An unlisted index is unwritten, so
no entry can equal what it reads as. -/
abbrev Memory.wf (m : Memory) : Prop :=
  List.Pairwise (fun x y : Host.Cell => x.1 < y.1) m ∧ ∀ c ∈ m, c.1 < Config.fbDepth

/-- `MemWrite(i, 1, d)` beside the register writes that make `t` of `s`: they take effect together (R14, R42). An
index that does not exist faults (R40; log 7). -/
def memWrite (s : State) (i : Nat) (d : Byte) (t : State) : Host.Outcome State Fault Refusal :=
  if i < Config.fbDepth then .next { t with fb := s.fb.write i d } else .fault (.noSuchByte i)

/-- What the read port gives: a byte, or the fault that R43 tells a model to raise. -/
inductive Readout where
  | byte (b : Byte)
  | stops (f : Fault)
deriving DecidableEq, Repr

/-- `MemRead(i, 1)` (R43). -/
def memRead (s : State) (i : Nat) : Readout :=
  if Config.fbDepth ≤ i then .stops (.noSuchByte i)
  else
    match s.fb.read i with
    | some b => .byte b
    | none => .stops (.unwrittenByte i)

/-! ### Taking a byte -/

/-- `in_ready` (R34). -/
def State.inReady (s : State) : Bool := s.st.receiving && !s.pins.rst && !s.pins.srcEnd

/-- A byte is accepted at the coming edge exactly when `in_valid == 1` and `in_ready == 1` (R34). -/
def State.accepts (s : State) : Bool := s.pins.inValid && s.inReady

/-! ### The exception and the way back -/

/-- `raise MalformedFrame`: the missing field is saved, the sticky flag set and the block stopped (R91, R95, R102).
`idx` and the buffer keep the bytes received. -/
def raiseMalformed (s : State) : State :=
  { s with tst := s.st, malformed := true, st := .stopped }

/-- The registers and the buffer after `RESET` (R110, R33): the only way out of `STOPPED` (R103). The buffer's
contents become unspecified, so every byte is unwritten again. -/
def resetRegisters (s : State) : State :=
  { s with
    st := .idle, cx := false, idx := 0#17, plen := 0x0000#16, rem := 0#17, ext := false, acc := 0x00#8,
    syncOk := false, malformed := false, tst := .idle, fb := [] }

/-! ### The outside -/

/-- The levels of the next cycle where none are given: the outside does nothing new and keeps its obligations. An
unaccepted byte stays offered (R114), `src_end` stays until reset (R116), `codec_en` and the read index stay, and
`frame_ack` and `rst` are low (log 2, DESIGN CHOICE). -/
def Pins.hold (p : Pins) (accepted : Bool) : Pins :=
  { inData := if p.inValid && !accepted then p.inData else 0#8, inValid := p.inValid && !accepted,
    srcEnd := p.srcEnd && !p.rst, frameAck := false, codecEn := p.codecEn, rst := false, raddr := p.raddr }

/-- The levels of the next cycle: the given ones, or the held ones. -/
def State.nextPins (s : State) : Pins :=
  match s.stim with
  | p :: _ => p
  | [] => s.pins.hold s.accepts

/-- `t` with the pins of the cycle after `s`'s. -/
def State.clocked (s t : State) : State :=
  { t with pins := s.nextPins, stim := s.stim.tail }

end Sys2Proof.Machine
end

