-- ==== Sys2Proof/Machine/Operands.lean ====
section
/-! DEFINITION. The operand of every byte operation, the decoded byte (40_codec.md), and the length arithmetic of
30_encoding.md rules R56 and R57. -/

namespace Sys2Proof.Machine

/-- `Codec(x) = x ^ KEY` (R66). -/
def codec (x : Byte) : Byte := x ^^^ Config.key

/-- The byte as decoded under the codec flag `k`: `k ? (x ^ KEY) : x` (R68). -/
def codecIf (k : Bool) (x : Byte) : Byte := if k then codec x else x

/-- `Codec` on a sequence, byte by byte (R66). -/
def codecAll (xs : List Byte) : List Byte := xs.map codec

/-- The codec flag that applies to the offered byte: `(st == IDLE) ? codec_en : cx` (R68). -/
def State.codecFlag (s : State) : Bool := if s.st = .idle then s.pins.codecEn else s.cx

/-- `Decode(in_data)` (R68). -/
def State.decodedByte (s : State) : Byte := codecIf s.codecFlag s.pins.inData

/-- `in_data ^ (codec_en ? KEY : 0)`: the operand `d` of R72 and R73. -/
def State.boundaryByte (s : State) : Byte := codecIf s.pins.codecEn s.pins.inData

/-- `in_data ^ (s.cx ? KEY : 0)`: the operand `d` of R74 to R80. -/
def State.frameByte (s : State) : Byte := codecIf s.cx s.pins.inData

/-- `L = zext_16(D[2])` (R56, R75). -/
def shortLength (d : Byte) : Length := d.setWidth 16

/-- `plen <- {d, s.plen[7:0]}` (R77). -/
def withHighByte (plen : Length) (d : Byte) : Length := d ++ plen.extractLsb' 0 8

/-- `plen <- {s.plen[15:8], d}` (R78). -/
def withLowByte (plen : Length) (d : Byte) : Length := plen.extractLsb' 8 8 ++ d

/-- `rem <- zext_17(L) + 1`: the body and the checksum byte (R57, R75, R78). -/
def remainingAfter (l : Length) : Index := l.setWidth 17 + 1#17

end Sys2Proof.Machine
end

