-- ==== Sys2Proof/Machine/Flags.lean ====
section
/-! DEFINITION. The flags: the running checksum (42_checksum.md), the conditions `Z`, `M` and `T` of the decode word
(30_encoding.md rule R61), the verdict and the cause (60_exceptions.md rule R99). -/

namespace Sys2Proof.Machine

/-- `AccUpdate`: `acc <- (s.acc + d) mod 256` (R84). -/
def accUpdate (acc d : Byte) : Byte := acc + d

/-- `d == 0x00`, the escape (R56, field `Z` of R61). -/
def isEscape (d : Byte) : Bool := d == 0x00#8

/-- `d == SYNC_VALUE` (R27, field `M` of R61). -/
def isSync (d : Byte) : Bool := d == Config.syncValue

/-- `s.rem == 1`: the next body byte is the checksum byte (field `T` of R61). -/
def State.lastByte (s : State) : Bool := s.rem == 1#17

/-- `frame_valid = (st == DONE)` (R35). -/
def State.frameValid (s : State) : Bool := s.st == .done

/-- `stopped = (st == STOPPED)` (R35). -/
def State.isStopped (s : State) : Bool := s.st == .stopped

/-- `csum_ok = (acc == 0x00)` (R36, R85). -/
def State.csumOk (s : State) : Bool := s.acc == 0x00#8

/-- The cause codes of R94. -/
inductive Cause where
  | none
  | malformedFrame
  | checksumMismatch
  | unrecognizedCommand
  | sourceUnavailable
  | endOfStream
deriving DecidableEq, Repr

/-- The numbers of R94, on the 3-bit output of R99. -/
def Cause.code : Cause → BitVec 3
  | .none => 0#3
  | .malformedFrame => 1#3
  | .checksumMismatch => 2#3
  | .unrecognizedCommand => 3#3
  | .sourceUnavailable => 4#3
  | .endOfStream => 5#3

/-- The `cause` output (R99). -/
def State.cause (s : State) : Cause :=
  if s.malformed then .malformedFrame
  else if s.frameValid && !s.csumOk then .checksumMismatch
  else if s.isStopped then .endOfStream
  else .none

end Sys2Proof.Machine
end

