-- ==== Sys2Proof/Machine/Bytes.lean ====
section
/-! DEFINITION. The nine byte operations of 41_assembly.md. Each writes the registers its rule names and one buffer
byte, from the state before the edge (R14); `HUNT_DISCARD` writes nothing. -/

namespace Sys2Proof.Machine

/-- `HUNT_DISCARD` (R72): the byte is consumed and dropped. -/
def execHuntDiscard (s : State) : Host.Outcome State Fault Refusal := .next s

/-- `BYTE_SYNC` (R73): byte 0. It writes `FB[0]`, whatever `idx` still holds (log 4). -/
def execByteSync (s : State) : Host.Outcome State Fault Refusal :=
  let d := s.boundaryByte
  memWrite s 0 d
    { s with
      idx := 1#17, cx := s.pins.codecEn, syncOk := isSync d, acc := 0x00#8, ext := false, plen := 0x0000#16,
      rem := 0#17, st := .sel }

/-- `BYTE_SEL` (R74): byte 1; not summed. -/
def execByteSel (s : State) : Host.Outcome State Fault Refusal :=
  memWrite s 1 s.frameByte { s with idx := 2#17, st := .len }

/-- `BYTE_LEN_SHORT` (R75): byte 2 as a length. -/
def execByteLenShort (s : State) : Host.Outcome State Fault Refusal :=
  let d := s.frameByte
  memWrite s 2 d
    { s with
      idx := 3#17, acc := accUpdate s.acc d, plen := shortLength d, ext := false,
      rem := remainingAfter (shortLength d), st := .body }

/-- `BYTE_LEN_ESC` (R76): byte 2 as the escape. The rule stores the constant 0x00 and adds it. -/
def execByteLenEsc (s : State) : Host.Outcome State Fault Refusal :=
  memWrite s 2 0x00#8 { s with idx := 3#17, acc := accUpdate s.acc 0x00#8, ext := true, st := .exth }

/-- `BYTE_EXTH` (R77): byte 3, the high byte of `EXT_LEN`. -/
def execByteExth (s : State) : Host.Outcome State Fault Refusal :=
  let d := s.frameByte
  memWrite s 3 d { s with idx := 4#17, acc := accUpdate s.acc d, plen := withHighByte s.plen d, st := .extl }

/-- `BYTE_EXTL` (R78): byte 4, the low byte of `EXT_LEN`. -/
def execByteExtl (s : State) : Host.Outcome State Fault Refusal :=
  let d := s.frameByte
  memWrite s 4 d
    { s with
      idx := 5#17, acc := accUpdate s.acc d, plen := withLowByte s.plen d,
      rem := remainingAfter (withLowByte s.plen d), st := .body }

/-- `BYTE_BODY` (R79): a body byte that is not the last byte. -/
def execByteBody (s : State) : Host.Outcome State Fault Refusal :=
  let d := s.frameByte
  memWrite s s.idx.toNat d { s with idx := s.idx + 1#17, acc := accUpdate s.acc d, rem := s.rem - 1#17 }

/-- `BYTE_CK` (R80): the checksum byte; the frame is complete. -/
def execByteCk (s : State) : Host.Outcome State Fault Refusal :=
  let d := s.frameByte
  memWrite s s.idx.toNat d
    { s with idx := s.idx + 1#17, acc := accUpdate s.acc d, rem := 0#17, st := .done }

end Sys2Proof.Machine
end

