-- ==== Sys2Proof/Machine/Control.lean ====
section
/-! DEFINITION. The operations that accept no byte: `RESET` (70_reset_and_hazards.md) and the control operations of
43_control.md. -/

namespace Sys2Proof.Machine

/-- `RESET` (R110). -/
def execReset (s : State) : Host.Outcome State Fault Refusal := .next (resetRegisters s)

/-- `END_CLEAN` (R90): the EndOfStream event of R98. -/
def execEndClean (s : State) : Host.Outcome State Fault Refusal := .next { s with st := .stopped }

/-- `END_MALFORMED` (R91): it always raises MalformedFrame. -/
def execEndMalformed (s : State) : Host.Outcome State Fault Refusal := .next (raiseMalformed s)

/-- `ACK` (R92): the held frame is released. -/
def execAck (s : State) : Host.Outcome State Fault Refusal := .next { s with st := .idle }

/-- `NOP` (R93): nothing is written. -/
def execNop (s : State) : Host.Outcome State Fault Refusal := .next s

end Sys2Proof.Machine
end

