-- ==== Sys2Proof/Machine/Dispatch.lean ====
section
/-! DEFINITION. exec: one arm per operation of 30_encoding.md rule R62. The free bits of the decode word carry
conditions on the pins, not values, so no meaning reads them. -/

namespace Sys2Proof.Machine
open Sys2Proof

def exec (i : Instr) (s : State) : Host.Outcome State Fault Refusal :=
  match i with
  | .reset _ _ _ _ _ _ _ _ => Sys2Proof.Machine.execReset s
  | .endClean _ _ _ _ _ _ => Sys2Proof.Machine.execEndClean s
  | .endMalformed _ _ _ _ _ _ _ => Sys2Proof.Machine.execEndMalformed s
  | .ack _ _ _ _ _ _ => Sys2Proof.Machine.execAck s
  | .huntDiscard _ _ _ => Sys2Proof.Machine.execHuntDiscard s
  | .byteSync _ _ _ _ _ => Sys2Proof.Machine.execByteSync s
  | .byteSel _ _ _ _ _ => Sys2Proof.Machine.execByteSel s
  | .byteLenShort _ _ _ _ => Sys2Proof.Machine.execByteLenShort s
  | .byteLenEsc _ _ _ _ => Sys2Proof.Machine.execByteLenEsc s
  | .byteExth _ _ _ _ _ => Sys2Proof.Machine.execByteExth s
  | .byteExtl _ _ _ _ _ => Sys2Proof.Machine.execByteExtl s
  | .byteBody _ _ _ _ => Sys2Proof.Machine.execByteBody s
  | .byteCk _ _ _ _ => Sys2Proof.Machine.execByteCk s
  | .nop _ _ _ _ _ _ _ _ _ => Sys2Proof.Machine.execNop s

end Sys2Proof.Machine
end

