-- ==== Sys2Proof/Decode.lean ====
section
/-! DEFINITION. The decode word `EW` (30_encoding.md rule R61), the operation map (rule R62) and the decoder and
encoder between `EW` and `Instr`. The value an `EW` takes from a state and its pins is built in Machine/Select.lean. -/

namespace Sys2Proof

/-- Why a 16-bit word is no decode word. -/
inductive DecodeError where
  /-- Bits 15:12 are not 0 (R61). Raised by `decode` only; no state builds such a word. Safe: the word is refused by
  name, never read as another. -/
  | reservedBits
deriving DecidableEq, Repr

/-- The fields of R61 as one word: bit 0 `R`, 1 `E`, 2 `V`, 3 `A`, 7:4 `S`, 8 `T`, 9 `Z`, 10 `M`, 11 `H`, 15:12 zero. -/
def packEW (h m z t : Bool) (s : BitVec 4) (a v e r : Bool) : OpWord :=
  0b0000#4 ++ BitVec.ofBool h ++ BitVec.ofBool m ++ BitVec.ofBool z ++ BitVec.ofBool t ++ s ++ BitVec.ofBool a ++
    BitVec.ofBool v ++ BitVec.ofBool e ++ BitVec.ofBool r

/-- Field `H` of R61. -/
def fieldH (w : OpWord) : Bool := w.getLsbD 11
/-- Field `M` of R61. -/
def fieldM (w : OpWord) : Bool := w.getLsbD 10
/-- Field `Z` of R61. -/
def fieldZ (w : OpWord) : Bool := w.getLsbD 9
/-- Field `T` of R61. -/
def fieldT (w : OpWord) : Bool := w.getLsbD 8
/-- Field `S` of R61. -/
def fieldS (w : OpWord) : BitVec 4 := w.extractLsb' 4 4
/-- Field `A` of R61. -/
def fieldA (w : OpWord) : Bool := w.getLsbD 3
/-- Field `V` of R61. -/
def fieldV (w : OpWord) : Bool := w.getLsbD 2
/-- Field `E` of R61. -/
def fieldE (w : OpWord) : Bool := w.getLsbD 1
/-- Field `R` of R61. -/
def fieldR (w : OpWord) : Bool := w.getLsbD 0

/-- One row of R62. -/
structure OpRow where
  op : Op
  mask : OpWord
  pattern : OpWord
deriving DecidableEq, Repr

/-- `(EW & mask) == match` (R62). -/
def OpRow.hits (row : OpRow) (w : OpWord) : Bool := w &&& row.mask == row.pattern

/-- The operation map of R62, in its priority order. -/
def opMap : List OpRow := [
  ⟨.reset, 0x0001#16, 0x0001#16⟩,
  ⟨.endClean, 0x00F3#16, 0x0002#16⟩,
  ⟨.endMalformed, 0x0083#16, 0x0082#16⟩,
  ⟨.ack, 0x00F9#16, 0x0028#16⟩,
  ⟨.huntDiscard, 0x0CF7#16, 0x0804#16⟩,
  ⟨.byteSync, 0x00F7#16, 0x0004#16⟩,
  ⟨.byteSel, 0x00F7#16, 0x0084#16⟩,
  ⟨.byteLenShort, 0x02F7#16, 0x0094#16⟩,
  ⟨.byteLenEsc, 0x02F7#16, 0x0294#16⟩,
  ⟨.byteExth, 0x00F7#16, 0x00A4#16⟩,
  ⟨.byteExtl, 0x00F7#16, 0x00B4#16⟩,
  ⟨.byteBody, 0x01F7#16, 0x00C4#16⟩,
  ⟨.byteCk, 0x01F7#16, 0x01C4#16⟩,
  ⟨.nop, 0x0000#16, 0x0000#16⟩]

/-- The first row that matches selects the operation; the last row matches every word (R62). -/
def selectOp (w : OpWord) : Op :=
  match opMap.find? (fun row => row.hits w) with
  | some row => row.op
  | none => .nop

/-- The instruction of operation `op` with the free bits that `w` holds. -/
def Op.readOperands (op : Op) (w : OpWord) : Instr :=
  match op with
  | .reset => .reset (fieldH w) (fieldM w) (fieldZ w) (fieldT w) (fieldS w) (fieldA w) (fieldV w) (fieldE w)
  | .endClean => .endClean (fieldH w) (fieldM w) (fieldZ w) (fieldT w) (fieldA w) (fieldV w)
  | .endMalformed =>
    .endMalformed (fieldH w) (fieldM w) (fieldZ w) (fieldT w) ((fieldS w).extractLsb' 0 3) (fieldA w) (fieldV w)
  | .ack => .ack (fieldH w) (fieldM w) (fieldZ w) (fieldT w) (fieldV w) (fieldE w)
  | .huntDiscard => .huntDiscard (fieldZ w) (fieldT w) (fieldA w)
  | .byteSync => .byteSync (fieldH w) (fieldM w) (fieldZ w) (fieldT w) (fieldA w)
  | .byteSel => .byteSel (fieldH w) (fieldM w) (fieldZ w) (fieldT w) (fieldA w)
  | .byteLenShort => .byteLenShort (fieldH w) (fieldM w) (fieldT w) (fieldA w)
  | .byteLenEsc => .byteLenEsc (fieldH w) (fieldM w) (fieldT w) (fieldA w)
  | .byteExth => .byteExth (fieldH w) (fieldM w) (fieldZ w) (fieldT w) (fieldA w)
  | .byteExtl => .byteExtl (fieldH w) (fieldM w) (fieldZ w) (fieldT w) (fieldA w)
  | .byteBody => .byteBody (fieldH w) (fieldM w) (fieldZ w) (fieldA w)
  | .byteCk => .byteCk (fieldH w) (fieldM w) (fieldZ w) (fieldA w)
  | .nop =>
    .nop (fieldH w) (fieldM w) (fieldZ w) (fieldT w) (fieldS w) (fieldA w) (fieldV w) (fieldE w) (fieldR w)

/-- The decoder: R62's operation with its free bits; a word whose bits 15:12 are not 0 is no `EW` (R61) and is
refused by name (log 11, DESIGN CHOICE, safe). -/
def decode (w : OpWord) : Except DecodeError Instr :=
  if w.extractLsb' 12 4 = 0#4 then .ok ((selectOp w).readOperands w) else .error .reservedBits

/-- The encoder: the word of an instruction, from the encodings of spec/opcode_table.json. -/
def encode : Instr → OpWord
  | .reset h m z t s a v e => packEW h m z t s a v e true
  | .endClean h m z t a v => packEW h m z t 0b0000#4 a v true false
  | .endMalformed h m z t s a v => packEW h m z t (1#1 ++ s) a v true false
  | .ack h m z t v e => packEW h m z t 0b0010#4 true v e false
  | .huntDiscard z t a => packEW true false z t 0b0000#4 a true false false
  | .byteSync h m z t a => packEW h m z t 0b0000#4 a true false false
  | .byteSel h m z t a => packEW h m z t 0b1000#4 a true false false
  | .byteLenShort h m t a => packEW h m false t 0b1001#4 a true false false
  | .byteLenEsc h m t a => packEW h m true t 0b1001#4 a true false false
  | .byteExth h m z t a => packEW h m z t 0b1010#4 a true false false
  | .byteExtl h m z t a => packEW h m z t 0b1011#4 a true false false
  | .byteBody h m z a => packEW h m z false 0b1100#4 a true false false
  | .byteCk h m z a => packEW h m z true 0b1100#4 a true false false
  | .nop h m z t s a v e r => packEW h m z t s a v e r

/-- What the decoder reads from the low `nbits` bits of `w`; a value that does not fit the 16-bit decode word is no
operation. -/
def decodeTableWord (nbits w : Nat) : Option Instr :=
  if w % 2 ^ nbits < 2 ^ 16 then
    match decode (BitVec.ofNat 16 (w % 2 ^ nbits)) with
    | .ok i => some i
    | .error _ => none
  else none

end Sys2Proof
end

