-- ==== Sys2Proof/Machine/Select.lean ====
section
/-! DEFINITION. The decode word of a cycle (30_encoding.md rule R61), and the priority of simultaneous inputs
(60_exceptions.md rule R101) written out on its own, to be compared with the operation map. -/

namespace Sys2Proof.Machine

/-- `EW` (R61). -/
def State.opWord (s : State) : OpWord :=
  packEW s.hunt (isSync s.decodedByte) (isEscape s.decodedByte) s.lastByte s.st.code s.pins.frameAck s.pins.inValid
    s.pins.srcEnd s.pins.rst

/-- The operation the cycle runs (R16, R62); none would mean that `EW` is no decode word. -/
def State.operation (s : State) : Option Op :=
  match decode s.opWord with
  | .ok i => some i.op
  | .error _ => none

/-- The byte operation of an accepted byte, by the field it fills (R19, R62 rows 5 to 13). -/
def State.byteOp (s : State) : Op :=
  match s.st with
  | .idle => if s.hunt && !isSync s.boundaryByte then .huntDiscard else .byteSync
  | .sel => .byteSel
  | .len => if isEscape s.frameByte then .byteLenEsc else .byteLenShort
  | .exth => .byteExth
  | .extl => .byteExtl
  | .body => if s.lastByte then .byteCk else .byteBody
  | .stopped | .done => .nop

/-- R101's order: reset, then end of stream (in `IDLE` or mid-frame), then `frame_ack` in `DONE`, then a byte, then
nothing. -/
def State.priorityOp (s : State) : Op :=
  if s.pins.rst then .reset
  else if s.pins.srcEnd && s.st == .idle then .endClean
  else if s.pins.srcEnd && s.st.midFrame then .endMalformed
  else if s.pins.frameAck && s.st == .done then .ack
  else if s.pins.inValid && s.st.receiving then s.byteOp
  else .nop

end Sys2Proof.Machine
end

