-- ==== Sys2Proof/Machine/Step.lean ====
section
/-! DEFINITION. One rising edge of `clk` (00_scope.md rules R15, R16): the decode word of the cycle selects one
operation, the operation runs, and the pins take the levels of the next cycle. -/

namespace Sys2Proof.Machine

/-- One rising edge (R15, R16, R62). -/
def step (s : State) : Host.Outcome State Fault Refusal :=
  match decode s.opWord with
  | .error .reservedBits => .refused .reservedDecodeWord
  | .ok i =>
    match exec i s with
    | .next t => .next (s.clocked t)
    | .fault f => .fault f
    | .refused r => .refused r

/-- The decoded byte a decode word asks for: 0x00 under `Z`, `SYNC_VALUE` under `M`, and otherwise the byte `d`
that stands there, if it is neither, or 0x01. Under both, which no cycle has, the one its row looks at. -/
def byteForWord (w : OpWord) (d : Byte) : Byte :=
  if fieldM w && (fieldS w == 0b0000#4 || !fieldZ w) then Config.syncValue
  else if fieldZ w then 0x00#8
  else if d = 0x00#8 ∨ d = Config.syncValue then 0x01#8
  else d

/-- The state a decode word asks for. A reserved code, which no cycle has (R20), stands for a legal one that rows 2
to 14 of R62 treat alike: `BODY` where `END_MALFORMED` takes it, else `STOPPED`. -/
def stateForWord (w : OpWord) : St :=
  (St.ofCode (fieldS w)).getD (if (fieldS w).getLsbD 3 && fieldE w then .body else .stopped)

/-- `s` with the pins, `st`, `rem` and `SYNC_HUNT` of a cycle whose `EW` is `w` (log 10). `rem` changes only where
its `T` would differ. -/
def State.withFetchWord (s : State) (nbits w : Nat) : State :=
  let ew := BitVec.ofNat 16 (w % 2 ^ nbits)
  let st' := stateForWord ew
  let flag := if st' = .idle then s.pins.codecEn else s.cx
  { s with
    st := st'
    rem := if s.lastByte == fieldT ew then s.rem else if fieldT ew then 1#17 else 0#17
    hunt := fieldH ew
    pins :=
      { s.pins with
        inData := codecIf flag (byteForWord ew (codecIf flag s.pins.inData))
        inValid := fieldV ew, srcEnd := fieldE ew, frameAck := fieldA ew, rst := fieldR ew } }

end Sys2Proof.Machine
end

