-- ==== Sys2Proof/Machine/Platform.lean ====
section
/-! DEFINITION. `N_PIPELINES` instances (00_scope.md rule R11; 60_exceptions.md rule R107). They share no state and no
signal, so an edge of one instance is its own step; edges of different instances come in any order (log 14). -/

namespace Sys2Proof.Machine

/-- A platform of `n` instances. -/
abbrev Platform (n : Nat) := Vector State n

/-- A rising edge of instance `i`. -/
def Platform.stepAt {n : Nat} (p : Platform n) (i : Fin n) : Host.Outcome (Platform n) Fault Refusal :=
  match step p[i] with
  | .next t => .next (p.set i t)
  | .fault f => .fault f
  | .refused r => .refused r

/-- Every instance right after its own reset. -/
def Platform.reset (n : Nat) (hunt : Fin n → Bool) : Platform n := Vector.ofFn (fun i => State.resetOf (hunt i))

end Sys2Proof.Machine
end

