-- ==== Sys2Proof/Machine/Reference.lean ====
section
/-! DEFINITION. The source's reference function over whole byte sequences (41_assembly.md rule R71), with the wire
format it reads: lengths (30_encoding.md rules R56, R57), the checksum range (R58), the obfuscated wire form (R55)
and the buffer layout (20_memory.md rule R41). Nothing here is used by the step. -/

namespace Sys2Proof.Machine

/-- `sum mod 256`: the sum of unsigned bytes reduced modulo 256 (R13). -/
def sumMod256 (bs : List Byte) : Byte := BitVec.ofNat 8 (bs.map BitVec.toNat).sum

/-- `H = ext ? 5 : 3` (R56). -/
def headerSize (ext : Bool) : Nat := if ext then 5 else 3

/-- `ext = (D[2] == 0x00)` (R56). -/
def isExtended (d : List Byte) : Bool := d.getD 2 0x00#8 == 0x00#8

/-- `L = ext ? {D[3], D[4]} : zext_16(D[2])` (R56). -/
def declaredLength (d : List Byte) : Length :=
  if isExtended d then d.getD 3 0x00#8 ++ d.getD 4 0x00#8 else (d.getD 2 0x00#8).setWidth 16

/-- `n = H + L + 1` (R57). -/
def frameLength (d : List Byte) : Nat := headerSize (isExtended d) + (declaredLength d).toNat + 1

/-- The sum over `[LEN..CHECKSUM]`: indices 2 to n-1 of a frame (R58). -/
def checksumOf (frame : List Byte) : Byte := sumMod256 (frame.drop 2)

/-- What `Assemble(k, W)` returns (R71). -/
inductive Assembled where
  /-- `End`: the empty stream. -/
  | ended
  /-- `Malformed(m)`: the stream ends after `m` bytes of a frame. -/
  | malformed (received : Nat)
  /-- `Frame(bytes, csum_ok)`, and the wire bytes that begin the next frame. -/
  | frame (bytes : List Byte) (csumOk : Bool) (rest : List Byte)
deriving DecidableEq, Repr

/-- `Assemble(k, W)` (R71). -/
def assemble (k : Bool) (w : List Byte) : Assembled :=
  let d := w.map (codecIf k)
  if w.length = 0 then .ended
  else if w.length < 3 then .malformed w.length
  else if isExtended d && decide (w.length < 5) then .malformed w.length
  else if w.length < frameLength d then .malformed w.length
  else
    let bytes := d.take (frameLength d)
    .frame bytes (checksumOf bytes == 0x00#8) (w.drop (frameLength d))

/-- The fields of the wire format (R41, R52). -/
inductive Field where
  | sync
  | selector
  | len
  | extLenHigh
  | extLenLow
  | lingo
  | payload
  | checksum
deriving DecidableEq, Repr

/-- The field at index `i` of a frame held in `DONE`, none past its end (R41). -/
def fieldAt (ext : Bool) (l : Length) (i : Nat) : Option Field :=
  let h := headerSize ext
  if i = 0 then some .sync
  else if i = 1 then some .selector
  else if i = 2 then some .len
  else if i < h then some (if i = 3 then .extLenHigh else .extLenLow)
  else if i < h + l.toNat then some (if i = h then .lingo else .payload)
  else if i = h + l.toNat then some .checksum
  else none

/-- The checksum byte that makes a frame valid: `(0 - sum of D[2..n-2]) mod 256`, of the frame without its last byte
(R87). -/
def validChecksum (frameBut : List Byte) : Byte := 0x00#8 - sumMod256 (frameBut.drop 2)

end Sys2Proof.Machine
end

