-- ==== Sys2Proof/Machine/Stimulus.lean ====
section
/-! DEFINITION. The stimulus notation of 30_encoding.md rules R64 and R65, as the input words it drives, and the boot
script of 70_reset_and_hazards.md rule R112. Nothing here is used by the step. -/

namespace Sys2Proof.Machine

/-- One line of a stimulus script (R64, R65). -/
inductive Line where
  /-- `.codec 0` or `.codec 1`: sets the `codec_en` level of every later line; no cycle. -/
  | codec (on : Bool)
  | reset
  | byte (b : Byte)
  | wait
  | ack
  /-- `END`: `src_end` rises and stays up to the next `RESET`. -/
  | finish
  | bytes (bs : List Byte)
  | frame (sel : Byte) (body : List Byte)
  | frameX (sel : Byte) (body : List Byte)
  | frameBad (sel : Byte) (body : List Byte)
deriving DecidableEq, Repr

/-- `{rst, codec_en, frame_ack, src_end, in_valid, in_data}` (R64). -/
def inputWord (rst codecEn frameAck srcEnd inValid : Bool) (inData : Byte) : InputWord :=
  BitVec.ofBool rst ++ BitVec.ofBool codecEn ++ BitVec.ofBool frameAck ++ BitVec.ofBool srcEnd ++
    BitVec.ofBool inValid ++ inData

/-- The header of R65: short for 1 <= L <= 255 unless `extended` asks for the escape. A body over 65535 bytes has no
frame; its length is taken modulo 2^16 (log 19). -/
def frameHeader (extended : Bool) (sel : Byte) (body : List Byte) : List Byte :=
  if !extended && decide (1 ≤ body.length ∧ body.length ≤ 255) then
    [Config.syncValue, sel, BitVec.ofNat 8 body.length]
  else
    let l : Length := BitVec.ofNat 16 body.length
    [Config.syncValue, sel, 0x00#8, l.extractLsb' 8 8, l.extractLsb' 0 8]

/-- The decoded bytes of `FRAME`, `FRAMEX` or `FRAMEBAD`: header, body and `cs` (R65); `flip` is XORed into `cs`. -/
def frameImage (extended : Bool) (sel : Byte) (body : List Byte) (flip : Byte) : List Byte :=
  let hdr := frameHeader extended sel body
  hdr ++ body ++ [(0x00#8 - (sumMod256 (hdr.drop 2) + sumMod256 body)) ^^^ flip]

/-- The input words of one line under the levels `c` of `codec_en` and `e` of `src_end` (R64, R65). -/
def Line.words (c e : Bool) : Line → List InputWord
  | .codec _ => []
  | .reset => [inputWord true c false false false 0x00#8]
  | .byte b => [inputWord false c false e true b]
  | .wait => [inputWord false c false e false 0x00#8]
  | .ack => [inputWord false c true e false 0x00#8]
  | .finish => [inputWord false c false true false 0x00#8]
  | .bytes bs => bs.map (inputWord false c false e true)
  | .frame sel body => ((frameImage false sel body 0x00#8).map (codecIf c)).map (inputWord false c false e true)
  | .frameX sel body => ((frameImage true sel body 0x00#8).map (codecIf c)).map (inputWord false c false e true)
  | .frameBad sel body => ((frameImage false sel body 0x01#8).map (codecIf c)).map (inputWord false c false e true)

/-- The `codec_en` level after a line (R64). -/
def Line.codecAfter (c : Bool) : Line → Bool
  | .codec on => on
  | _ => c

/-- The `src_end` level after a line (R64). -/
def Line.endedAfter (e : Bool) : Line → Bool
  | .finish => true
  | .reset => false
  | _ => e

/-- The input words of a script, one per cycle (R64). -/
def scriptWords (c e : Bool) : List Line → List InputWord
  | [] => []
  | l :: rest => l.words c e ++ scriptWords (l.codecAfter c) (l.endedAfter e) rest

/-- The pin levels of a script, for `State.stim`; the read index is low. -/
def scriptPins (script : List Line) : List Pins := (scriptWords false false script).map (Pins.ofWord · 0#17)

/-- R112: reset for one edge with `src_end = 0`, under the source's codec setting. -/
def bootScript (obfuscated : Bool) : List Line := [.codec obfuscated, .reset]

end Sys2Proof.Machine
end

