-- ==== Sys2Proof/Machine/Outputs.lean ====
section
/-! DEFINITION. The outputs, functions of the state and the pins of the cycle (10_state.md rules R34 to R39), the
read port (20_memory.md rule R43) and the lines a platform may wire to interrupts (60_exceptions.md rule R100). They
change nothing. -/

namespace Sys2Proof.Machine

/-- `flen = idx` (R37). -/
def State.flen (s : State) : Index := s.idx

/-- `plen_out = plen` (R37). -/
def State.plenOut (s : State) : Length := s.plen

/-- `ext_out = ext` (R37). -/
def State.extOut (s : State) : Bool := s.ext

/-- `body_off = ext ? 5 : 3` (R38). -/
def State.bodyOff (s : State) : Index := if s.ext then 5#17 else 3#17

/-- `ck_off = idx - 1` (R38), modulo 2^17 (R13; log 18). -/
def State.ckOff (s : State) : Index := s.idx - 1#17

/-- `selector = FB[1]` (R38), by the read of R43 (log 18). -/
def State.selector (s : State) : Readout := memRead s 1

/-- `fb_rdata = MemRead(fb_raddr, 1)` (R43). -/
def State.fbRdata (s : State) : Readout := memRead s s.pins.raddr.toNat

/-- `W[i] = FB[i] ^ (cx ? KEY : 0)`: the wire byte behind a held byte (R70). -/
def State.wireByte (s : State) (i : Nat) : Readout :=
  match memRead s i with
  | .byte b => .byte (codecIf s.cx b)
  | .stops f => .stops f

/-- The `STATUS` word (R39). -/
def State.statusWord (s : State) : StatusWord :=
  0x00#8 ++ s.acc ++ s.tst.code ++ BitVec.ofBool s.st.receiving ++ BitVec.ofBool s.isStopped ++ BitVec.ofBool s.cx ++
    BitVec.ofBool s.syncOk ++ BitVec.ofBool s.malformed ++ BitVec.ofBool s.ext ++ BitVec.ofBool s.csumOk ++
    BitVec.ofBool s.frameValid ++ s.st.code

/-- The `FLEN` word (R39). -/
def State.flenWord (s : State) : StatusWord := s.idx.setWidth 32

/-- The `PLEN` word (R39). -/
def State.plenWord (s : State) : StatusWord := s.plen.setWidth 32

/-- The `REM` word (R39). -/
def State.remWord (s : State) : StatusWord := s.rem.setWidth 32

/-- The status view by word offset (R39, R40); no other offset holds a word. -/
def State.statusRead (s : State) (offset : Nat) : Option StatusWord :=
  if offset = 0x0 then some s.statusWord
  else if offset = 0x4 then some s.flenWord
  else if offset = 0x8 then some s.plenWord
  else if offset = 0xC then some s.remWord
  else none

/-- The output vector `out(s, i)` (R15). -/
structure Outputs where
  inReady : Bool
  frameValid : Bool
  stopped : Bool
  csumOk : Bool
  flen : Index
  plenOut : Length
  extOut : Bool
  bodyOff : Index
  ckOff : Index
  selector : Readout
  cause : BitVec 3
  /-- `cause != 0`, the third level of R100 beside `frameValid` and `stopped`. -/
  causeNonzero : Bool
  fbRdata : Readout
deriving DecidableEq, Repr

/-- `out(s, i)`, with the pins of the cycle in the state (R15, R119). -/
def State.out (s : State) : Outputs :=
  { inReady := s.inReady, frameValid := s.frameValid, stopped := s.isStopped, csumOk := s.csumOk, flen := s.flen,
    plenOut := s.plenOut, extOut := s.extOut, bodyOff := s.bodyOff, ckOff := s.ckOff, selector := s.selector,
    cause := s.cause.code, causeNonzero := s.cause.code != 0#3, fbRdata := s.fbRdata }

end Sys2Proof.Machine
end

