-- ==== Sys2Proof/Safety.lean ====
section
/-! DEFINITION. The terms claims are stated in: reachable states, the invariants of 41_assembly.md rule R81 and
42_checksum.md rule R84, the acceptance of a byte sequence (R82), and the obligations of the outside
(93_implementation_defined.md U7, U8). -/

namespace Sys2Proof.Machine

/-- The states of runs from reset (R111), under any build parameter and any inputs. -/
inductive Reachable : State → Prop where
  /-- The state of R33 with any inputs before it. -/
  | start (h : Bool) (p : Pins) (q : List Pins) : Reachable { State.resetOf h with pins := p, stim := q }
  /-- One more rising edge. -/
  | edge {s t : State} : Reachable s → step s = .next t → Reachable t

/-- The first `n` bytes of the buffer, 0x00 standing for an unwritten one. -/
def State.bufferBytes (s : State) (n : Nat) : List Byte := (List.range n).map (fun i => (s.fb.read i).getD 0x00#8)

/-- `H + plen + 1` of the state's own length fields (R57, R81). -/
def State.declaredEnd (s : State) : Nat := headerSize s.ext + s.plen.toNat + 1

/-- R81, clause by clause. -/
structure State.Framed (s : State) : Prop where
  sel : s.st = .sel → s.idx.toNat = 1
  len : s.st = .len → s.idx.toNat = 2
  exth : s.st = .exth → s.idx.toNat = 3 ∧ s.ext = true ∧ s.plen.toNat = 0
  extl : s.st = .extl → s.idx.toNat = 4 ∧ s.ext = true
  body : s.st = .body →
    1 ≤ s.rem.toNat ∧ s.rem.toNat ≤ s.plen.toNat + 1 ∧ s.idx.toNat + s.rem.toNat = s.declaredEnd
  done : s.st = .done → s.rem.toNat = 0 ∧ s.idx.toNat = s.declaredEnd
  bound : s.idx.toNat ≤ 65541

/-- What `BYTE_SYNC` leaves for the later header bytes (R73; the comments '== 0 here' of R75 to R77). -/
structure State.HeaderFresh (s : State) : Prop where
  sel : s.st = .sel → s.plen = 0x0000#16 ∧ s.ext = false
  len : s.st = .len → s.plen = 0x0000#16
  extl : s.st = .extl → s.plen.extractLsb' 0 8 = 0x00#8

/-- The bytes counted by `idx` have been written, and `acc` is their checksum sum (R84). -/
structure State.Summed (s : State) : Prop where
  written : ∀ i < s.idx.toNat, (s.fb.read i).isSome = true
  sum : s.acc = checksumOf (s.bufferBytes s.idx.toNat)

/-- The length fields in the buffer and in the registers agree (R41, R56): the escape while `EXT_LEN` is awaited, its
high byte once it is in, and `ext` and `plen` once the length is known. -/
structure State.LengthHeld (s : State) : Prop where
  exth : s.st = .exth → s.fb.read 2 = some 0x00#8
  extl : s.st = .extl → s.fb.read 2 = some 0x00#8 ∧ s.fb.read 3 = some (s.plen.extractLsb' 8 8)
  known : s.st = .body ∨ s.st = .done →
    s.ext = isExtended (s.bufferBytes s.idx.toNat) ∧ s.plen = declaredLength (s.bufferBytes s.idx.toNat)

/-- The exception registers: `malformed` only in `STOPPED` (R28, R95, R103), with `tst` a mid-frame state, and `tst` is
`0000` otherwise (R29). -/
structure State.Trapped (s : State) : Prop where
  stopped : s.malformed = true → s.st = .stopped ∧ s.tst.midFrame = true
  clear : s.malformed = false → s.tst = .idle

/-- Everything the FSR keeps from reset on. -/
structure State.Inv (s : State) : Prop where
  memory : Memory.wf s.fb
  framed : s.Framed
  fresh : s.HeaderFresh
  summed : s.Summed
  held : s.LengthHeld
  trapped : s.Trapped

/-- `Accepted k s w u`: from `s` the FSR accepts the wire bytes `w`, in order, and stands in `u`. There is no reset,
no end of stream and no release of a held frame on the way, any number of cycles without a byte lies between the
bytes, and `codec_en` is `k` at a byte accepted in `IDLE` (the premises of R82). -/
inductive Accepted (k : Bool) : State → List Byte → State → Prop where
  /-- No cycle yet. -/
  | here (s : State) : Accepted k s [] s
  /-- A cycle that accepts no byte. -/
  | gap {s t u : State} {w : List Byte} : s.pins.rst = false → s.pins.srcEnd = false → s.accepts = false →
      ¬(s.st = .done ∧ s.pins.frameAck = true) → step s = .next t → Accepted k t w u → Accepted k s w u
  /-- A cycle that accepts a byte. -/
  | byte {s t u : State} {w : List Byte} : s.pins.rst = false → s.pins.srcEnd = false → s.accepts = true →
      (s.st = .idle → s.pins.codecEn = k) → step s = .next t → Accepted k t w u →
      Accepted k s (s.pins.inData :: w) u

/-- The levels that offer the wire bytes `w`, one a cycle, under the codec flag `k`. -/
def offering (k : Bool) (w : List Byte) : List Pins :=
  w.map (fun b => { Pins.low with inData := b, inValid := true, codecEn := k })

/-- `s` with the levels `ps` in this cycle and those after it. -/
def State.driven (s : State) (ps : List Pins) : State :=
  match ps with
  | [] => s
  | p :: rest => { s with pins := p, stim := rest }

/-- The operation `step` runs at `s` is `op`. -/
abbrev State.runs (s : State) (op : Op) : Prop := s.operation = some op

/-- `x ^ (k ? KEY : 0)`, as the rules of 41_assembly.md write the decoded byte. -/
def unmasked (k : Bool) (x : Byte) : Byte := x ^^^ (if k then 0x31#8 else 0x00#8)

/-- `m'` holds `d` at index `i` and what `m` holds at every other index. -/
def storedAt (m m' : Memory) (i : Nat) (d : Byte) : Prop := m'.read i = some d ∧ ∀ j, j ≠ i → m'.read j = m.read j

/-- U7: `src_end` is held until reset, from the pins of one cycle to those of the next (R60, R116). -/
def endHeld (p p' : Pins) : Prop := p.srcEnd = true → p.rst = false → p'.rst = false → p'.srcEnd = true

/-- U8: a byte offered and not accepted is offered again (R114). -/
def byteHeld (s : State) (p' : Pins) : Prop :=
  s.pins.inValid = true → s.accepts = false → p'.inValid = true ∧ p'.inData = s.pins.inData

/-- What the source owes the FSR at one edge (93 U7, U8; log 9). -/
def State.sourceObeys (s : State) : Prop := endHeld s.pins s.nextPins ∧ byteHeld s s.nextPins

/-- Two states with the same registers and buffer; their pins and their later inputs may differ. -/
def sameRegisters (s t : State) : Prop := { s with pins := t.pins, stim := t.stim } = t

/-- Two answers of a step that leave the same registers and buffer, or stop alike. -/
def sameEffect : Host.Outcome State Fault Refusal → Host.Outcome State Fault Refusal → Prop
  | .next s, .next t => sameRegisters s t
  | .fault f, .fault g => f = g
  | .refused q, .refused r => q = r
  | _, _ => False

end Sys2Proof.Machine
end

