-- ==== Sys2Proof/WellFormed.lean ====
section
/-! DEFINITION. Which instruction words a cycle can select (log 11). Three checks: the state field holds a legal
encoding (R19, R20); the decoded byte is not at once 0x00 and 0xFF (R61); and no earlier row of R62 takes the word,
which only BYTE_SYNC (row 5 comes first) and NOP (row 14, R63) can fail. -/

namespace Sys2Proof

/-- The eight legal encodings of `st` (R19); the others are reserved (R20). -/
def legalStateCode (s : BitVec 4) : Bool :=
  s == 0b0000#4 || s == 0b0001#4 || s == 0b0010#4 || s == 0b1000#4 || s == 0b1001#4 || s == 0b1010#4 ||
    s == 0b1011#4 || s == 0b1100#4

/-- A receiving state's encoding: `IDLE` or bit 3 set (R34, R63). -/
def receivingStateCode (s : BitVec 4) : Bool :=
  s == 0b0000#4 || s.getLsbD 3

/-- R61: `Z` and `M` speak of one decoded byte, which is not both 0x00 and 0xFF. -/
def oneByte (z m : Bool) : Bool := !(z && m)

/-- R63: the cycles the NOP row covers, on the fields of the word. -/
def nopCycle (s : BitVec 4) (a v e r : Bool) : Bool :=
  !r && ((s == 0b0010#4 && !a) || s == 0b0001#4 || (receivingStateCode s && !e && !v))

/-- The words a cycle can select: see the file's header. -/
def Instr.wellFormed : Instr → Bool
  | .reset _ m z _ s _ _ _ => oneByte z m && legalStateCode s
  | .endClean _ m z _ _ _ => oneByte z m
  | .endMalformed _ m z _ s _ _ => oneByte z m && legalStateCode (1#1 ++ s)
  | .ack _ m z _ _ _ => oneByte z m
  | .huntDiscard _ _ _ => true
  | .byteSync h m z _ _ => oneByte z m && !(h && !m)
  | .byteSel _ m z _ _ => oneByte z m
  | .byteLenShort _ _ _ _ => true
  | .byteLenEsc _ m _ _ => oneByte true m
  | .byteExth _ m z _ _ => oneByte z m
  | .byteExtl _ m z _ _ => oneByte z m
  | .byteBody _ m z _ => oneByte z m
  | .byteCk _ m z _ => oneByte z m
  | .nop _ m z _ s a v e r => oneByte z m && legalStateCode s && nopCycle s a v e r

end Sys2Proof
end

