-- ==== Sys2Proof/Certificates/Slice0/Obligations.lean ====
section
/-! DEFINITION. The statements for the provers, one definition each, listed in OBLIGATIONS.json. Where a statement says
what an operation does, its parts are: the row of the operation map, the cycles that select it, its whole effect
(every register by equation, the buffer byte by byte), and the corner cases its rule lists. -/

open Sys2Proof Sys2Proof.Machine

/-! ### Reset, status view, input word -/

/-- R33: the state after `RESET`, register by register; every buffer byte is unwritten. -/
def Obligations.ResetStateValues : Prop :=
  ∀ hunt : Bool,
    let z := State.resetOf hunt
    z.st.code = 0b0000#4 ∧ z.cx = false ∧ z.idx = 0#17 ∧ z.plen = 0x0000#16 ∧ z.rem = 0#17 ∧ z.ext = false ∧
      z.acc = 0x00#8 ∧ z.syncOk = false ∧ z.malformed = false ∧ z.tst.code = 0b0000#4 ∧
      (∀ i, z.fb.read i = none) ∧ (z = State.reset ↔ hunt = false)

/-- R39: every field of the four status words, the offsets, no dependence on an input, and the values at reset. -/
def Obligations.StatusViewLayout : Prop :=
  (∀ s : State,
    let w := s.statusWord
    w.extractLsb' 0 4 = s.st.code ∧ w.getLsbD 4 = decide (s.st = .done) ∧ w.getLsbD 5 = decide (s.acc = 0x00#8) ∧
      w.getLsbD 6 = s.ext ∧ w.getLsbD 7 = s.malformed ∧ w.getLsbD 8 = s.syncOk ∧ w.getLsbD 9 = s.cx ∧
      w.getLsbD 10 = decide (s.st = .stopped) ∧ w.getLsbD 11 = (decide (s.st = .idle) || s.st.code.getLsbD 3) ∧
      w.extractLsb' 12 4 = s.tst.code ∧ w.extractLsb' 16 8 = s.acc ∧ w.extractLsb' 24 8 = 0x00#8) ∧
  (∀ s : State, s.flenWord.extractLsb' 0 17 = s.idx ∧ s.flenWord.extractLsb' 17 15 = 0#15 ∧
    s.plenWord.extractLsb' 0 16 = s.plen ∧ s.plenWord.extractLsb' 16 16 = 0#16 ∧
    s.remWord.extractLsb' 0 17 = s.rem ∧ s.remWord.extractLsb' 17 15 = 0#15) ∧
  (∀ s : State, s.statusRead 0x0 = some s.statusWord ∧ s.statusRead 0x4 = some s.flenWord ∧
    s.statusRead 0x8 = some s.plenWord ∧ s.statusRead 0xC = some s.remWord) ∧
  (∀ (s : State) (p : Pins) (q : List Pins) (offset : Nat),
    State.statusRead { s with pins := p, stim := q } offset = s.statusRead offset) ∧
  (State.reset.statusWord = 0x00000820#32 ∧ State.reset.flenWord = 0#32 ∧ State.reset.plenWord = 0#32 ∧
    State.reset.remWord = 0#32)

/-- R60: the layout of `IW`; the read index never reaches the step; a byte is accepted exactly when it is offered and
`in_ready` is 1, and one that is offered otherwise has no effect on the registers or the buffer. -/
def Obligations.InputWordAndHandshake : Prop :=
  (∀ p : Pins, p.toWord.extractLsb' 0 8 = p.inData ∧ p.toWord.getLsbD 8 = p.inValid ∧ p.toWord.getLsbD 9 = p.srcEnd ∧
    p.toWord.getLsbD 10 = p.frameAck ∧ p.toWord.getLsbD 11 = p.codecEn ∧ p.toWord.getLsbD 12 = p.rst ∧
    Pins.ofWord p.toWord p.raddr = p) ∧
  (∀ (s : State) (r : Index), sameEffect (step s) (step { s with pins := { s.pins with raddr := r } })) ∧
  (∀ s : State, s.accepts = true ↔ s.pins.inValid = true ∧ s.out.inReady = true) ∧
  (∀ (s : State) (v : Bool) (d : Byte), s.out.inReady = false →
    sameEffect (step s) (step { s with pins := { s.pins with inValid := v, inData := d } }))

/-! ### The operations -/

/-- R110: `RESET`. -/
def Obligations.ResetOperation : Prop :=
  opMap[0]? = some ⟨.reset, 0x0001#16, 0x0001#16⟩ ∧
  (∀ s : State, s.runs .reset ↔ s.pins.rst = true) ∧
  (∀ (h m z t : Bool) (c : BitVec 4) (a v e : Bool) (s : State), ∃ fb',
    exec (.reset h m z t c a v e) s = .next
      { s with
        st := .idle, cx := false, idx := 0#17, plen := 0x0000#16, rem := 0#17, ext := false, acc := 0x00#8,
        syncOk := false, malformed := false, tst := .idle, fb := fb' } ∧
      ∀ i, fb'.read i = none) ∧
  (∀ s : State, s.pins.rst = true → s.accepts = false) ∧
  (∀ s t : State, s.st = .stopped → step s = .next t → t.st ≠ .stopped → s.runs .reset) ∧
  (∀ s t u : State, s.pins.rst = true → step s = .next t → t.pins.rst = true → step t = .next u → sameRegisters t u) ∧
  (∀ s t : State, s.pins.rst = true → step s = .next t → t.statusWord = 0x00000820#32)

/-- R90, with the event of R98: `END_CLEAN`. -/
def Obligations.EndCleanOperation : Prop :=
  opMap[1]? = some ⟨.endClean, 0x00F3#16, 0x0002#16⟩ ∧
  (∀ s : State, s.runs .endClean ↔ s.pins.rst = false ∧ s.pins.srcEnd = true ∧ s.st = .idle) ∧
  (∀ (h m z t a v : Bool) (s : State), exec (.endClean h m z t a v) s = .next { s with st := .stopped }) ∧
  (∀ s t : State, Reachable s → s.runs .endClean → step s = .next t →
    t.malformed = false ∧ t.out.stopped = true ∧ t.cause = .endOfStream) ∧
  (∀ s : State, s.pins.srcEnd = true → s.accepts = false)

/-- R91: `END_MALFORMED` raises MalformedFrame: `tst` and `malformed` are written, `idx` and the buffer are kept, and the
frame is never delivered. -/
def Obligations.EndMalformedOperation : Prop :=
  opMap[2]? = some ⟨.endMalformed, 0x0083#16, 0x0082#16⟩ ∧
  (∀ s : State, s.runs .endMalformed ↔ s.pins.rst = false ∧ s.pins.srcEnd = true ∧ s.st.code.getLsbD 3 = true) ∧
  (∀ (h m z t : Bool) (c : BitVec 3) (a v : Bool) (s : State),
    exec (.endMalformed h m z t c a v) s = .next { s with tst := s.st, malformed := true, st := .stopped }) ∧
  (∀ s t : State, s.runs .endMalformed → step s = .next t →
    t.cause = .malformedFrame ∧ t.out.frameValid = false ∧ t.out.stopped = true) ∧
  (∀ s : State, Reachable s → s.runs .endMalformed →
    1 ≤ s.idx.toNat ∧ s.idx.toNat ≤ 65540 ∧ ∀ i < s.idx.toNat, ∃ b, s.fb.read i = some b)

/-- R92: `ACK`. -/
def Obligations.AckOperation : Prop :=
  opMap[3]? = some ⟨.ack, 0x00F9#16, 0x0028#16⟩ ∧
  (∀ s : State, s.runs .ack ↔ s.pins.rst = false ∧ s.pins.frameAck = true ∧ s.st = .done) ∧
  (∀ (h m z t v e : Bool) (s : State), exec (.ack h m z t v e) s = .next { s with st := .idle }) ∧
  (∀ s : State, s.st = .done → s.accepts = false) ∧
  (∀ s t : State, s.runs .ack → step s = .next t →
    t.out.frameValid = false ∧ (t.pins.srcEnd = true → t.pins.rst = false → t.runs .endClean)) ∧
  (∀ (s : State) (a : Bool), s.st ≠ .done →
    sameEffect (step s) (step { s with pins := { s.pins with frameAck := a } }))

/-- R72: `HUNT_DISCARD` drops a byte that is not SYNC under the cycle's `codec_en`, and exists only with `SYNC_HUNT`. -/
def Obligations.HuntDiscardOperation : Prop :=
  opMap[4]? = some ⟨.huntDiscard, 0x0CF7#16, 0x0804#16⟩ ∧
  (∀ s : State, s.runs .huntDiscard ↔
    s.pins.rst = false ∧ s.pins.srcEnd = false ∧ s.pins.inValid = true ∧ s.st = .idle ∧ s.hunt = true ∧
      unmasked s.pins.codecEn s.pins.inData ≠ 0xFF#8) ∧
  (∀ (z t a : Bool) (s : State), exec (.huntDiscard z t a) s = .next s) ∧
  (∀ s : State, s.runs .huntDiscard → s.accepts = true)

/-- R73: `BYTE_SYNC` stores byte 0 and re-initialises every per-frame register. -/
def Obligations.ByteSyncOperation : Prop :=
  opMap[5]? = some ⟨.byteSync, 0x00F7#16, 0x0004#16⟩ ∧
  (∀ s : State, s.runs .byteSync ↔
    s.pins.rst = false ∧ s.pins.srcEnd = false ∧ s.pins.inValid = true ∧ s.st = .idle ∧
      (s.hunt = true → unmasked s.pins.codecEn s.pins.inData = 0xFF#8)) ∧
  (∀ (h m z t a : Bool) (s : State), ∃ fb',
    exec (.byteSync h m z t a) s = .next
      { s with
        fb := fb', idx := 1#17, cx := s.pins.codecEn,
        syncOk := decide (unmasked s.pins.codecEn s.pins.inData = 0xFF#8), acc := 0x00#8, ext := false,
        plen := 0x0000#16, rem := 0#17, st := .sel } ∧
      storedAt s.fb fb' 0 (unmasked s.pins.codecEn s.pins.inData)) ∧
  (∀ s : State, Reachable s → s.runs .byteSync → s.malformed = false ∧ s.tst.code = 0b0000#4)

/-- R74: `BYTE_SEL` stores byte 1, whatever its value, and does not sum it. -/
def Obligations.ByteSelOperation : Prop :=
  opMap[6]? = some ⟨.byteSel, 0x00F7#16, 0x0084#16⟩ ∧
  (∀ s : State, s.runs .byteSel ↔
    s.pins.rst = false ∧ s.pins.srcEnd = false ∧ s.pins.inValid = true ∧ s.st = .sel) ∧
  (∀ (h m z t a : Bool) (s : State), ∃ fb',
    exec (.byteSel h m z t a) s = .next { s with fb := fb', idx := 2#17, st := .len } ∧
      storedAt s.fb fb' 1 (unmasked s.cx s.pins.inData))

/-- R75: `BYTE_LEN_SHORT` takes byte 2 as the length, with no scaling; `rem` is one more and does not wrap. -/
def Obligations.ByteLenShortOperation : Prop :=
  opMap[7]? = some ⟨.byteLenShort, 0x02F7#16, 0x0094#16⟩ ∧
  (∀ s : State, s.runs .byteLenShort ↔
    s.pins.rst = false ∧ s.pins.srcEnd = false ∧ s.pins.inValid = true ∧ s.st = .len ∧
      unmasked s.cx s.pins.inData ≠ 0x00#8) ∧
  (∀ (h m t a : Bool) (s : State), ∃ fb' plen' rem',
    exec (.byteLenShort h m t a) s = .next
      { s with
        fb := fb', idx := 3#17, acc := s.acc + unmasked s.cx s.pins.inData, plen := plen', ext := false, rem := rem',
        st := .body } ∧
      plen'.toNat = (unmasked s.cx s.pins.inData).toNat ∧
      rem'.toNat = (unmasked s.cx s.pins.inData).toNat + 1 ∧
      storedAt s.fb fb' 2 (unmasked s.cx s.pins.inData)) ∧
  (∀ s : State, Reachable s → s.st = .len → s.acc = 0x00#8)

/-- R76: `BYTE_LEN_ESC` stores the escape 0x00 and marks the extended form; `plen` is 0 until `EXT_LEN` fills it. -/
def Obligations.ByteLenEscOperation : Prop :=
  opMap[8]? = some ⟨.byteLenEsc, 0x02F7#16, 0x0294#16⟩ ∧
  (∀ s : State, s.runs .byteLenEsc ↔
    s.pins.rst = false ∧ s.pins.srcEnd = false ∧ s.pins.inValid = true ∧ s.st = .len ∧
      unmasked s.cx s.pins.inData = 0x00#8) ∧
  (∀ (h m t a : Bool) (s : State), ∃ fb',
    exec (.byteLenEsc h m t a) s = .next { s with fb := fb', idx := 3#17, ext := true, st := .exth } ∧
      storedAt s.fb fb' 2 0x00#8) ∧
  (∀ s : State, Reachable s → (s.st = .sel ∨ s.st = .len ∨ s.st = .exth) → s.plen = 0x0000#16)

/-- R77: `BYTE_EXTH` puts byte 3 into the high byte of `plen`. -/
def Obligations.ByteExthOperation : Prop :=
  opMap[9]? = some ⟨.byteExth, 0x00F7#16, 0x00A4#16⟩ ∧
  (∀ s : State, s.runs .byteExth ↔
    s.pins.rst = false ∧ s.pins.srcEnd = false ∧ s.pins.inValid = true ∧ s.st = .exth) ∧
  (∀ (h m z t a : Bool) (s : State), ∃ fb' plen',
    exec (.byteExth h m z t a) s = .next
      { s with fb := fb', idx := 4#17, acc := s.acc + unmasked s.cx s.pins.inData, plen := plen', st := .extl } ∧
      plen'.extractLsb' 8 8 = unmasked s.cx s.pins.inData ∧ plen'.extractLsb' 0 8 = s.plen.extractLsb' 0 8 ∧
      storedAt s.fb fb' 3 (unmasked s.cx s.pins.inData)) ∧
  (∀ s : State, Reachable s → s.st = .exth → s.plen.extractLsb' 0 8 = 0x00#8)

/-- R78: `BYTE_EXTL` puts byte 4 into the low byte of `plen` and sets `rem` to the length plus one, in 17 bits. -/
def Obligations.ByteExtlOperation : Prop :=
  opMap[10]? = some ⟨.byteExtl, 0x00F7#16, 0x00B4#16⟩ ∧
  (∀ s : State, s.runs .byteExtl ↔
    s.pins.rst = false ∧ s.pins.srcEnd = false ∧ s.pins.inValid = true ∧ s.st = .extl) ∧
  (∀ (h m z t a : Bool) (s : State), ∃ fb' plen' rem',
    exec (.byteExtl h m z t a) s = .next
      { s with
        fb := fb', idx := 5#17, acc := s.acc + unmasked s.cx s.pins.inData, plen := plen', rem := rem',
        st := .body } ∧
      plen'.extractLsb' 8 8 = s.plen.extractLsb' 8 8 ∧ plen'.extractLsb' 0 8 = unmasked s.cx s.pins.inData ∧
      rem'.toNat = plen'.toNat + 1 ∧
      storedAt s.fb fb' 4 (unmasked s.cx s.pins.inData))

/-- R79: `BYTE_BODY` stores a body byte at `idx`; any byte is data. The premise `idx < 65541` is what every reachable
state meets, as the last part says. -/
def Obligations.ByteBodyOperation : Prop :=
  opMap[11]? = some ⟨.byteBody, 0x01F7#16, 0x00C4#16⟩ ∧
  (∀ s : State, s.runs .byteBody ↔
    s.pins.rst = false ∧ s.pins.srcEnd = false ∧ s.pins.inValid = true ∧ s.st = .body ∧ s.rem ≠ 1#17) ∧
  (∀ (h m z a : Bool) (s : State), s.idx.toNat < 65541 → ∃ fb',
    exec (.byteBody h m z a) s = .next
      { s with
        fb := fb', idx := s.idx + 1#17, acc := s.acc + unmasked s.cx s.pins.inData, rem := s.rem - 1#17 } ∧
      storedAt s.fb fb' s.idx.toNat (unmasked s.cx s.pins.inData)) ∧
  (∀ s : State, Reachable s → s.runs .byteBody → 2 ≤ s.rem.toNat ∧ s.idx.toNat + 1 ≤ 65540)

/-- R80: `BYTE_CK` stores the checksum byte at `idx` and completes the frame, which is held, with its verdict, until it
is acknowledged or reset. -/
def Obligations.ByteCkOperation : Prop :=
  opMap[12]? = some ⟨.byteCk, 0x01F7#16, 0x01C4#16⟩ ∧
  (∀ s : State, s.runs .byteCk ↔
    s.pins.rst = false ∧ s.pins.srcEnd = false ∧ s.pins.inValid = true ∧ s.st = .body ∧ s.rem = 1#17) ∧
  (∀ (h m z a : Bool) (s : State), s.idx.toNat < 65541 → ∃ fb',
    exec (.byteCk h m z a) s = .next
      { s with
        fb := fb', idx := s.idx + 1#17, acc := s.acc + unmasked s.cx s.pins.inData, rem := 0#17, st := .done } ∧
      storedAt s.fb fb' s.idx.toNat (unmasked s.cx s.pins.inData)) ∧
  (∀ s t : State, s.runs .byteCk → step s = .next t →
    t.out.frameValid = true ∧ t.out.csumOk = decide (s.acc + unmasked s.cx s.pins.inData = 0x00#8)) ∧
  (∀ s : State, Reachable s → s.runs .byteCk →
    s.idx.toNat < 65541 ∧ (s.ext = true → s.plen = 0x0000#16 → s.idx.toNat = 5)) ∧
  (∀ s : State, s.st = .done → s.accepts = false ∧
    (s.pins.frameAck = false → s.pins.rst = false → step s = .next (s.clocked s)))

/-- R93: `NOP` changes nothing and runs exactly when no other row does; so `STOPPED` is left only by reset, and `DONE`
only by reset or an acknowledge. -/
def Obligations.NopOperation : Prop :=
  opMap[13]? = some ⟨.nop, 0x0000#16, 0x0000#16⟩ ∧
  (∀ s : State, s.runs .nop ↔
    s.pins.rst = false ∧
      (s.st = .stopped ∨ (s.st = .done ∧ s.pins.frameAck = false) ∨
        ((s.st = .idle ∨ s.st.code.getLsbD 3 = true) ∧ s.pins.srcEnd = false ∧ s.pins.inValid = false))) ∧
  (∀ (h m z t : Bool) (c : BitVec 4) (a v e r : Bool) (s : State), exec (.nop h m z t c a v e r) s = .next s) ∧
  (∀ s : State, s.runs .nop → step s = .next (s.clocked s))

/-! ### Selection, decoding, encoding -/

/-- R62: the map, row by row; the first row that matches selects; row 5 lies inside row 6, the last row matches every
word, and every other pair of rows is disjoint; no byte row matches a word with `E = 1`. -/
def Obligations.OperationMapSelectsOneRow : Prop :=
  opMap.map (fun row => (row.mask.toNat, row.pattern.toNat)) =
    [(0x0001, 0x0001), (0x00F3, 0x0002), (0x0083, 0x0082), (0x00F9, 0x0028), (0x0CF7, 0x0804), (0x00F7, 0x0004),
      (0x00F7, 0x0084), (0x02F7, 0x0094), (0x02F7, 0x0294), (0x00F7, 0x00A4), (0x00F7, 0x00B4), (0x01F7, 0x00C4),
      (0x01F7, 0x01C4), (0x0000, 0x0000)] ∧
  opMap.map OpRow.op =
    [.reset, .endClean, .endMalformed, .ack, .huntDiscard, .byteSync, .byteSel, .byteLenShort, .byteLenEsc, .byteExth,
      .byteExtl, .byteBody, .byteCk, .nop] ∧
  (∀ w : OpWord, ∃ (k : Nat) (row : OpRow), opMap[k]? = some row ∧ w &&& row.mask = row.pattern ∧
    selectOp w = row.op ∧ ∀ (j : Nat) (earlier : OpRow), j < k → opMap[j]? = some earlier →
      w &&& earlier.mask ≠ earlier.pattern) ∧
  (∀ (i j : Nat) (x y : OpRow) (w : OpWord), i < j → j < 13 → ¬(i = 4 ∧ j = 5) → opMap[i]? = some x →
    opMap[j]? = some y → x.hits w = true → y.hits w = false) ∧
  (∀ (x y : OpRow) (w : OpWord), opMap[4]? = some x → opMap[5]? = some y → x.hits w = true → y.hits w = true) ∧
  (∀ (i : Nat) (x : OpRow) (w : OpWord), 4 ≤ i → i < 13 → opMap[i]? = some x → x.hits w = true → fieldE w = false)

/-- R61: every field of the decode word of a cycle, `Z` and `M` on the decoded byte of R68. -/
def Obligations.DecodeWordFields : Prop :=
  ∀ s : State,
    let w := s.opWord
    let d := unmasked (if s.st = .idle then s.pins.codecEn else s.cx) s.pins.inData
    w.getLsbD 0 = s.pins.rst ∧ w.getLsbD 1 = s.pins.srcEnd ∧ w.getLsbD 2 = s.pins.inValid ∧
      w.getLsbD 3 = s.pins.frameAck ∧ w.extractLsb' 4 4 = s.st.code ∧ w.getLsbD 8 = decide (s.rem = 1#17) ∧
      w.getLsbD 9 = decide (d = 0x00#8) ∧ w.getLsbD 10 = decide (d = 0xFF#8) ∧ w.getLsbD 11 = s.hunt ∧
      w.extractLsb' 12 4 = 0#4

/-- R101: the operation the map selects from the decode word is the one the priority order gives from the inputs, in
every state; a byte offered with `src_end` or `rst` is not accepted. -/
def Obligations.PriorityOfInputs : Prop :=
  (∀ s : State, s.operation = some s.priorityOp) ∧
  (∀ s : State, s.pins.srcEnd = true → s.accepts = false) ∧
  (∀ s : State, s.pins.rst = true → s.accepts = false) ∧
  (∀ s : State, s.pins.rst = false → s.pins.srcEnd = true → s.st.code.getLsbD 3 = true → s.runs .endMalformed)

/-- Decoding the word of a well-formed instruction gives the instruction back, every free bit at every value. -/
def Obligations.DecodeEncodeRoundTrip : Prop := ∀ i : Instr, i.wellFormed = true → decode (encode i) = .ok i

/-- Every word that decodes is the word of the instruction it decodes to, and the word of every cycle decodes to a
well-formed instruction. -/
def Obligations.DecodedWordsEncodeBack : Prop :=
  (∀ (w : OpWord) (i : Instr), decode w = .ok i → encode i = w) ∧
  (∀ s : State, ∃ i, decode s.opWord = .ok i ∧ i.wellFormed = true)

/-- Decode words of the test vectors (95_test_vectors.md sections 2.2 and 2.4) decode to the operations beside them, and a
word with a bit of 15:12 set decodes to nothing (the last part is the model's choice, log 11). -/
def Obligations.SpecWordsDecode : Prop :=
  decode 0x0404#16 = .ok (.byteSync false true false false false) ∧
  decode 0x0A04#16 = .ok (.huntDiscard true false false) ∧
  decode 0x0084#16 = .ok (.byteSel false false false false false) ∧
  decode 0x009C#16 = .ok (.byteLenShort false false false true) ∧
  decode 0x0294#16 = .ok (.byteLenEsc false false false false) ∧
  decode 0x05C4#16 = .ok (.byteCk false true false false) ∧
  decode 0x02CF#16 = .ok (.reset false false true false 0b1100#4 true true true) ∧
  decode 0x022A#16 = .ok (.ack false false true false false true) ∧
  decode 0x02C6#16 = .ok (.endMalformed false false true false 0b100#3 false true) ∧
  decode 0x1000#16 = .error .reservedBits

/-- One edge runs the decoded instruction and then lets the outside drive the pins of the next cycle: the first of the
given levels, or the held ones (logs 1 and 2, the model's form of the inputs). -/
def Obligations.StepRunsDecodedInstruction : Prop :=
  ∀ (s : State) (i : Instr), decode s.opWord = .ok i →
    (∀ t, exec i s = .next t →
      step s = .next { t with pins := s.stim.headD (s.pins.hold s.accepts), stim := s.stim.tail }) ∧
    (∀ f, exec i s = .fault f → step s = .fault f) ∧
    (∀ r, exec i s = .refused r → step s = .refused r)

/-- The word that `withFetchWord` is given is the decode word of the next edge, for every word a cycle can have (log 10,
the model's interface). -/
def Obligations.FetchWordIsSelected : Prop :=
  ∀ (s : State) (w : OpWord), w.extractLsb' 12 4 = 0#4 → legalStateCode (fieldS w) = true →
    oneByte (fieldZ w) (fieldM w) = true → (s.withFetchWord 16 w.toNat).opWord = w

/-! ### Invariants -/

/-- The reset state meets the invariant, whatever the build parameter and the inputs. -/
def Obligations.InvariantHoldsAtReset : Prop :=
  ∀ (h : Bool) (p : Pins) (q : List Pins), State.Inv { State.resetOf h with pins := p, stim := q }

/-- Every step keeps the invariant: the canonical form of the buffer, the clauses of R81, the written bytes and their
running sum (R84), the length fields (R56) and the exception registers (R28, R29). -/
def Obligations.InvariantKeptByStep : Prop := ∀ s t : State, s.Inv → step s = .next t → t.Inv

/-- From every state that meets the invariant a step answers a next state: no write leaves the buffer (R9). -/
def Obligations.StepAnswersFromInvariant : Prop := ∀ s : State, s.Inv → ∃ t, step s = .next t

/-- R81: every state reachable from reset. -/
def Obligations.ReachableStatesAreFramed : Prop :=
  ∀ s : State, Reachable s →
    (s.st = .sel → s.idx.toNat = 1) ∧ (s.st = .len → s.idx.toNat = 2) ∧
    (s.st = .exth → s.idx.toNat = 3 ∧ s.ext = true ∧ s.plen.toNat = 0) ∧
    (s.st = .extl → s.idx.toNat = 4 ∧ s.ext = true) ∧
    (s.st = .body → 1 ≤ s.rem.toNat ∧ s.rem.toNat ≤ s.plen.toNat + 1 ∧
      s.idx.toNat + s.rem.toNat = (if s.ext then 5 else 3) + s.plen.toNat + 1) ∧
    (s.st = .done → s.rem.toNat = 0 ∧ s.idx.toNat = (if s.ext then 5 else 3) + s.plen.toNat + 1) ∧
    s.idx.toNat ≤ 65541

/-- R84: what each operation does to `acc`, and that `acc` is the sum of the stored bytes from index 2 in every
reachable state. -/
def Obligations.AccumulatorIsRunningSum : Prop :=
  (∀ (s t : State) (op : Op), s.runs op → step s = .next t → t.acc =
    match op with
    | .reset | .byteSync => 0x00#8
    | .byteLenShort | .byteLenEsc | .byteExth | .byteExtl | .byteBody | .byteCk =>
      s.acc + unmasked s.cx s.pins.inData
    | .endClean | .endMalformed | .ack | .huntDiscard | .byteSel | .nop => s.acc) ∧
  (∀ s : State, Reachable s → s.acc = sumMod256 ((s.bufferBytes s.idx.toNat).drop 2)) ∧
  (∀ (s : State) (i : Nat), Reachable s → i < s.idx.toNat → ∃ b, s.fb.read i = some b)

/-- R56: once the length is known, `ext` and `plen` are those of the bytes at indices 2 to 4, big-endian, with no
scaling; and `H` is the offset of the first body byte. -/
def Obligations.HeldLengthIsBigEndian : Prop :=
  ∀ s : State, Reachable s → s.st = .body ∨ s.st = .done →
    ∃ d2, s.fb.read 2 = some d2 ∧ s.ext = decide (d2 = 0x00#8) ∧
      (s.ext = false → s.plen.toNat = d2.toNat ∧ s.bodyOff = 3#17) ∧
      (s.ext = true → s.bodyOff = 5#17 ∧ ∃ d3 d4, s.fb.read 3 = some d3 ∧ s.fb.read 4 = some d4 ∧
        s.plen.toNat = 256 * d3.toNat + d4.toNat)

/-! ### Outputs -/

/-- R35, R36 and R37: the delivery outputs, in every state. -/
def Obligations.DeliveryOutputs : Prop :=
  ∀ s : State,
    (s.out.frameValid = true ↔ s.st = .done) ∧ (s.out.stopped = true ↔ s.st = .stopped) ∧
      (s.out.csumOk = true ↔ s.acc = 0x00#8) ∧ s.out.flen = s.idx ∧ s.out.plenOut = s.plen ∧ s.out.extOut = s.ext

/-- R100: the three levels, and the only operations that clear them and `malformed`. -/
def Obligations.LevelsClearedOnlyBy : Prop :=
  (∀ s : State, s.out.causeNonzero = decide (s.out.cause ≠ 0#3)) ∧
  (∀ s t : State, step s = .next t →
    (s.out.frameValid = true → (t.out.frameValid = false ↔ s.runs .ack ∨ s.runs .reset)) ∧
    (s.out.stopped = true → (t.out.stopped = false ↔ s.runs .reset)) ∧
    (s.malformed = true → (t.malformed = false ↔ s.runs .reset)))

/-- R34: `in_ready`, and a byte is accepted exactly when one of the nine byte operations runs. -/
def Obligations.ByteAcceptance : Prop :=
  (∀ s : State, s.out.inReady = true ↔
    (s.st = .idle ∨ s.st.code.getLsbD 3 = true) ∧ s.pins.rst = false ∧ s.pins.srcEnd = false) ∧
  (∀ s : State, (s.pins.inValid = true ∧ s.out.inReady = true) ↔
    ∃ op, s.runs op ∧ op ∈ [Op.huntDiscard, .byteSync, .byteSel, .byteLenShort, .byteLenEsc, .byteExth, .byteExtl,
      .byteBody, .byteCk]) ∧
  (∀ s : State, s.st = .done ∨ s.st = .stopped → s.accepts = false)

/-- R99: the `cause` output; codes 3 and 4 are never output. -/
def Obligations.CauseOutput : Prop :=
  ∀ s : State,
    s.out.cause =
      (if s.malformed = true then 1#3
        else if s.st = .done ∧ s.acc ≠ 0x00#8 then 2#3 else if s.st = .stopped then 5#3 else 0#3) ∧
    s.out.cause ≠ 3#3 ∧ s.out.cause ≠ 4#3

/-- R38: while a frame is held, `body_off` is the index of the first body byte (of the checksum when L = 0), `ck_off` the
index of the checksum, and `selector` is the byte at index 1. -/
def Obligations.FieldOffsetsOfHeldFrame : Prop :=
  ∀ s : State, Reachable s → s.out.frameValid = true →
    s.out.bodyOff.toNat = (if s.ext then 5 else 3) ∧
    fieldAt s.ext s.plen s.out.bodyOff.toNat = some (if s.plen = 0x0000#16 then .checksum else .lingo) ∧
    s.out.ckOff.toNat + 1 = s.idx.toNat ∧ fieldAt s.ext s.plen s.out.ckOff.toNat = some .checksum ∧
    ∃ b, s.fb.read 1 = some b ∧ s.out.selector = .byte b

/-- R43: the read port, in any state: the byte written last at the index, or the fault a model raises; a step does not
depend on it. -/
def Obligations.ReadPort : Prop :=
  (∀ (s : State) (b : Byte), s.pins.raddr.toNat < 65541 → s.fb.read s.pins.raddr.toNat = some b →
    s.out.fbRdata = .byte b) ∧
  (∀ s : State, s.pins.raddr.toNat < 65541 → s.fb.read s.pins.raddr.toNat = none →
    s.out.fbRdata = .stops (.unwrittenByte s.pins.raddr.toNat)) ∧
  (∀ s : State, 65541 ≤ s.pins.raddr.toNat → s.out.fbRdata = .stops (.noSuchByte s.pins.raddr.toNat)) ∧
  (∀ (s : State) (r : Index), sameEffect (step s) (step { s with pins := { s.pins with raddr := r } })) ∧
  (∀ s : State, Reachable s → s.out.frameValid = true → s.pins.raddr.toNat < s.idx.toNat →
    ∃ b, s.out.fbRdata = .byte b)

/-! ### Frames of the step -/

/-- The buffer changes only in two ways: `RESET` leaves every byte unwritten, and an accepted byte that is not discarded
is stored decoded at one index: `idx` (R42), or 0 where it starts a frame, which is R73's `FB[0]`; every other byte
stays. That R73 and not R42 gives the index from `IDLE` is the model's reading (log 4). -/
def Obligations.OneBufferWritePerByte : Prop :=
  ∀ s t : State, step s = .next t →
    (s.pins.rst = true → ∀ i, t.fb.read i = none) ∧
    (s.pins.rst = false → (s.accepts = false ∨ s.runs .huntDiscard) → ∀ i, t.fb.read i = s.fb.read i) ∧
    (s.accepts = true → ¬s.runs .huntDiscard → Reachable s →
      storedAt s.fb t.fb (if s.st = .idle then 0 else s.idx.toNat) s.decodedByte)

/-- While a frame is held, a step that is no reset writes no register but `st`, and no byte; `st` changes only by an
acknowledge. -/
def Obligations.NoWriteWhileHeld : Prop :=
  ∀ s t : State, s.st = .done → s.pins.rst = false → step s = .next t →
    sameRegisters { s with st := if s.pins.frameAck then .idle else .done } t

/-- R86: the sum never blocks, drops or alters a frame: a step from any state does the same for every value of `acc` but
to `acc` itself; a frame with a wrong sum is held and released like any other; and while a frame is held all its bytes
are readable and `csum_ok` is the verdict on them. -/
def Obligations.VerdictNeverBlocks : Prop :=
  (∀ (s t : State) (x : Byte), step s = .next t →
    ∃ t', step { s with acc := x } = .next t' ∧ { t' with acc := t.acc } = t) ∧
  (∀ s : State, s.out.frameValid = true → s.out.csumOk = false → s.pins.rst = false →
    step s = .next (s.clocked (if s.pins.frameAck then { s with st := .idle } else s))) ∧
  (∀ s : State, Reachable s → s.out.frameValid = true →
    (∀ i < s.idx.toNat, ∃ b, s.fb.read i = some b) ∧
      s.out.csumOk = decide (checksumOf (s.bufferBytes s.idx.toNat) = 0x00#8))

/-- R68: the decoded byte of every state; the flag is latched by `BYTE_SYNC` and by nothing else but a reset's clearing,
and `codec_en` has no effect within a frame. -/
def Obligations.CodecFlagLatched : Prop :=
  (∀ s : State, s.decodedByte = s.pins.inData ^^^
    (if (if s.st = .idle then s.pins.codecEn else s.cx) then 0x31#8 else 0x00#8)) ∧
  (∀ s t : State, step s = .next t →
    t.cx = if s.runs .byteSync then s.pins.codecEn else if s.runs .reset then false else s.cx) ∧
  (∀ (s : State) (c : Bool), s.st ≠ .idle →
    sameEffect (step s) (step { s with pins := { s.pins with codecEn := c } }))

/-- Ignored inputs: `frame_ack` outside `DONE`, a byte in `DONE` or `STOPPED`, `src_end` in `DONE` until the acknowledge
has returned the FSR to `IDLE`. -/
def Obligations.IgnoredInputs : Prop :=
  (∀ (s : State) (a : Bool), s.st ≠ .done →
    sameEffect (step s) (step { s with pins := { s.pins with frameAck := a } })) ∧
  (∀ (s : State) (v : Bool) (d : Byte), s.st = .done ∨ s.st = .stopped →
    sameEffect (step s) (step { s with pins := { s.pins with inValid := v, inData := d } })) ∧
  (∀ (s : State) (e : Bool), s.st = .done ∨ s.st = .stopped →
    sameEffect (step s) (step { s with pins := { s.pins with srcEnd := e } }))

/-! ### Exceptions -/

/-- R28 and R29: `malformed` is set by `END_MALFORMED` alone and cleared by `RESET` alone; `tst` is the state that was
left then, one of the five mid-frame states, and `0000` otherwise. -/
def Obligations.MalformedIsSticky : Prop :=
  (∀ s t : State, step s = .next t →
    (t.malformed = true ↔ s.runs .endMalformed ∨ (s.malformed = true ∧ ¬s.runs .reset)) ∧
    t.tst = if s.runs .endMalformed then s.st else if s.runs .reset then .idle else s.tst) ∧
  (∀ s : State, Reachable s →
    (s.malformed = false → s.tst.code = 0b0000#4) ∧
    (s.malformed = true → s.tst ∈ [St.sel, .len, .exth, .extl, .body] ∧ s.st = .stopped))

/-- R103: in `STOPPED` everything but `RESET` is ignored, and `RESET` clears `malformed` and `tst`. -/
def Obligations.StoppedUntilReset : Prop :=
  (∀ s : State, s.st = .stopped → s.pins.rst = false → step s = .next (s.clocked s)) ∧
  (∀ s : State, s.st = .stopped → s.pins.rst = true →
    ∃ t, step s = .next t ∧ t.st = .idle ∧ t.malformed = false ∧ t.tst.code = 0b0000#4)

/-- R32: a frame's first byte leaves the same registers whatever the frame before it left, `malformed` and `tst` apart;
`ACK` keeps them all; and no frame starts once `malformed` is set. -/
def Obligations.FramesAreIndependent : Prop :=
  (∀ s s' t t' : State, s.runs .byteSync → s'.runs .byteSync → s.pins.inData = s'.pins.inData →
    s.pins.codecEn = s'.pins.codecEn → step s = .next t → step s' = .next t' →
    sameRegisters { t with fb := t'.fb, malformed := t'.malformed, tst := t'.tst, hunt := t'.hunt } t' ∧
      t.fb.read 0 = t'.fb.read 0) ∧
  (∀ s t : State, s.runs .ack → step s = .next t → sameRegisters { s with st := .idle } t) ∧
  (∀ s : State, Reachable s → s.malformed = true → ¬s.runs .byteSync)

/-! ### Codec and checksum -/

/-- R66 and R67: the codec is an XOR with 0x31, byte by byte, its own inverse, with no fixed point. -/
def Obligations.CodecIsSelfInverse : Prop :=
  (∀ x : Byte, codec x = x ^^^ 0x31#8 ∧ codec (codec x) = x ∧ codec x ≠ x) ∧
  (∀ xs : List Byte, codecAll (codecAll xs) = xs ∧ (codecAll xs).length = xs.length ∧
    ∀ i < xs.length, (codecAll xs).getD i 0x00#8 = codec (xs.getD i 0x00#8)) ∧
  codec 0x31#8 = 0x00#8 ∧ codec 0x00#8 = 0x31#8 ∧ codec 0xFF#8 = 0xCE#8 ∧ codec 0x55#8 = 0x64#8

/-- R87: the checksum byte that makes a frame valid is unique, and no counter of the FSR wraps. -/
def Obligations.ChecksumByteUnique : Prop :=
  (∀ (d : List Byte) (c : Byte), 2 ≤ d.length →
    (checksumOf (d ++ [c]) = 0x00#8 ↔ c = 0x00#8 - sumMod256 (d.drop 2))) ∧
  (∀ s : State, Reachable s → (s.idx + 1#17).toNat = s.idx.toNat + 1 ∧
    (s.runs .byteBody → 2 ≤ s.rem.toNat ∧ (s.rem - 1#17).toNat = s.rem.toNat - 1)) ∧
  (∀ l : Length, (l.setWidth 17 + 1#17).toNat = l.toNat + 1 ∧ (l.setWidth 17 + 1#17).toNat ≤ 65536)

/-- R88: a flip of one bit in the checksum range changes the sum by plus or minus the bit's weight, so a valid frame
becomes invalid, and an invalid one becomes valid only where its sum was that. The frame's bytes are fixed: how many
bytes a flipped length field frames is no part of this. -/
def Obligations.SingleBitFlipChangesVerdict : Prop :=
  ∀ (d : List Byte) (i j : Nat), 2 ≤ i → i < d.length → j < 8 →
    let flipped := d.set i (d.getD i 0x00#8 ^^^ (1#8 <<< j))
    (checksumOf flipped = checksumOf d + (1#8 <<< j) ∨ checksumOf flipped = checksumOf d - (1#8 <<< j)) ∧
    checksumOf flipped ≠ checksumOf d ∧
    (checksumOf d = 0x00#8 → checksumOf flipped ≠ 0x00#8) ∧
    (checksumOf flipped = 0x00#8 → checksumOf d = 1#8 <<< j ∨ checksumOf d = 0x00#8 - (1#8 <<< j))

/-! ### Whole frames -/

/-- R69 and R70: the wire bytes of a frame, from its SYNC on, each decoded exactly once, are the buffer's bytes, and the
wire bytes are recovered from them. `SYNC_HUNT` may be set: then the first byte is a SYNC, and bytes discarded before
it are the subject of HuntDiscardOperation. -/
def Obligations.EveryByteDecodedOnce : Prop :=
  ∀ (k : Bool) (s u : State) (w : List Byte) (b : Byte) (rest : List Byte), s.st = .idle → w = b :: rest →
    (s.hunt = true → unmasked k b = 0xFF#8) → Accepted k s w u →
    u.idx.toNat = w.length ∧ u.cx = k ∧
    ∀ i < w.length, u.fb.read i = some (unmasked k (w.getD i 0x00#8)) ∧ u.wireByte i = .byte (w.getD i 0x00#8)

/-- R82: the FSR with `SYNC_HUNT = 0` does what the source's reference function says, with any pauses between the bytes:
a whole frame is held with its verdict and no byte after it is accepted before `ACK`; an end of stream inside a frame
is a MalformedFrame with the count of bytes received; an end before any byte is a clean end; and after `ACK` the FSR is
in `IDLE` again, with `SYNC_HUNT` still 0. -/
def Obligations.AssemblesAsTheReference : Prop :=
  (∀ (k : Bool) (s u : State) (w bytes rest : List Byte) (ok : Bool), s.st = .idle → s.hunt = false →
    Accepted k s w u → assemble k w = .frame bytes ok rest →
    rest = [] ∧ u.st = .done ∧ u.bufferBytes bytes.length = bytes ∧ u.idx.toNat = bytes.length ∧
      u.out.csumOk = ok ∧ u.accepts = false) ∧
  (∀ (k : Bool) (s u : State) (w : List Byte) (m : Nat), s.st = .idle → s.hunt = false → Accepted k s w u →
    assemble k w = .malformed m → u.pins.rst = false → u.pins.srcEnd = true →
    u.runs .endMalformed ∧ u.idx.toNat = m ∧
      ∃ t, step u = .next t ∧ t.malformed = true ∧ t.st = .stopped ∧ t.idx.toNat = m ∧ t.tst = u.st) ∧
  (∀ (k : Bool) (s u : State), s.st = .idle → s.hunt = false → Accepted k s [] u → assemble k [] = .ended ∧
    (u.pins.rst = false → u.pins.srcEnd = true → u.runs .endClean)) ∧
  (∀ s t : State, s.st = .done → s.pins.rst = false → s.pins.frameAck = true → step s = .next t →
    t.st = .idle ∧ t.hunt = s.hunt)

/-- A frame offered one byte a cycle is held after exactly as many edges as it has bytes, with the bytes, length and
verdict of the reference function: the FSR never waits for more and never stops early. -/
def Obligations.FrameHeldAfterItsBytes : Prop :=
  ∀ (k : Bool) (s : State) (w bytes : List Byte) (ok : Bool), s.st = .idle → s.hunt = false →
    assemble k w = .frame bytes ok [] →
    ∃ u : State, Sys2Proof.core.run w.length (s.driven (offering k w)) = .next u ∧ u.out.frameValid = true ∧
      u.out.flen.toNat = w.length ∧ u.bufferBytes w.length = bytes ∧ u.out.csumOk = ok ∧ u.cx = k

/-- R83: a complete frame of the reference function has H + L + 1 bytes and at least five, and so has every frame the
FSR delivers, by its own `ext` and `plen`. -/
def Obligations.FramesHaveFiveBytes : Prop :=
  (∀ (k : Bool) (w bytes rest : List Byte) (ok : Bool), assemble k w = .frame bytes ok rest →
    bytes.length = (if isExtended bytes then 5 else 3) + (declaredLength bytes).toNat + 1 ∧ 5 ≤ bytes.length ∧
      w.map (codecIf k) = bytes ++ rest.map (codecIf k)) ∧
  (∀ s : State, Reachable s → s.out.frameValid = true →
    s.out.flen.toNat = (if s.ext then 5 else 3) + s.plen.toNat + 1 ∧ 5 ≤ s.out.flen.toNat) ∧
  (∀ (k : Bool) (w : List Byte), w.length < 5 → w ≠ [] → assemble k w = .malformed w.length)

/-- The frames of the stimulus notation: `FRAME` and `FRAMEX` give a valid frame of the bytes they list and `FRAMEBAD`
an invalid one, under either codec level. -/
def Obligations.ScriptFramesAreFrames : Prop :=
  ∀ (k extended : Bool) (sel : Byte) (body : List Byte), body.length ≤ 65535 →
    assemble k ((frameImage extended sel body 0x00#8).map (codecIf k)) =
      .frame (frameImage extended sel body 0x00#8) true [] ∧
    assemble k ((frameImage extended sel body 0x01#8).map (codecIf k)) =
      .frame (frameImage extended sel body 0x01#8) false [] ∧
    (frameImage extended sel body 0x00#8).take 2 = [0xFF#8, sel]

/-! ### The outside -/

/-- R107: instances share nothing: an edge of one is its own step, changes no other, does not depend on another, and
commutes with an edge of another. -/
def Obligations.PipelinesAreIsolated : Prop :=
  ∀ (n : Nat) (p q : Platform n) (i : Fin n), p.stepAt i = .next q →
    (step p[i] = .next q[i] ∧ ∀ j : Fin n, j ≠ i → q[j] = p[j]) ∧
    (∀ p' : Platform n, p'[i] = p[i] → ∃ q', p'.stepAt i = .next q' ∧ q'[i] = q[i]) ∧
    (∀ (j : Fin n) (r : Platform n), j ≠ i → q.stepAt j = .next r →
      ∃ q', p.stepAt j = .next q' ∧ q'.stepAt i = .next r)

/-- Where no later levels are given, the outside keeps the obligations the spec lays on the source (log 2, the model's
choice of what follows the given levels). -/
def Obligations.HeldPinsObeyTheSource : Prop := ∀ s : State, s.stim = [] → s.sourceObeys

/-- There is no timeout: with nothing offered, no end of stream, no acknowledge and no reset, and no later levels given,
the FSR stays as it is for any number of edges (log 2, the model's choice of what follows the given levels). -/
def Obligations.WaitsWithoutTimeout : Prop :=
  ∀ (s : State) (n : Nat), s.stim = [] →
    s.pins = { Pins.low with codecEn := s.pins.codecEn, raddr := s.pins.raddr } →
    Sys2Proof.core.run n s = .next s

/-- A body or checksum byte with `idx` past the buffer, which no reachable state has, stops the model by name (log 7, the
model's choice). -/
def Obligations.StorePastBufferFaults : Prop :=
  ∀ (h m z a : Bool) (s : State), 65541 ≤ s.idx.toNat →
    exec (.byteBody h m z a) s = .fault (.noSuchByte s.idx.toNat) ∧
    exec (.byteCk h m z a) s = .fault (.noSuchByte s.idx.toNat)
end

