-- ==== Sys2Proof/Laws/Decode.lean ====
section
/-! SUPPORT. The fields of a packed decode word. -/

namespace Sys2Proof

section fields
variable (h m z t : Bool) (s : BitVec 4) (a v e r : Bool)

@[simp] theorem fieldH_packEW : fieldH (packEW h m z t s a v e r) = h := by
  unfold fieldH packEW
  repeat rw [BitVec.getLsbD_append]
  simp
@[simp] theorem fieldM_packEW : fieldM (packEW h m z t s a v e r) = m := by
  unfold fieldM packEW
  repeat rw [BitVec.getLsbD_append]
  simp
@[simp] theorem fieldZ_packEW : fieldZ (packEW h m z t s a v e r) = z := by
  unfold fieldZ packEW
  repeat rw [BitVec.getLsbD_append]
  simp
@[simp] theorem fieldT_packEW : fieldT (packEW h m z t s a v e r) = t := by
  unfold fieldT packEW
  repeat rw [BitVec.getLsbD_append]
  simp
@[simp] theorem fieldA_packEW : fieldA (packEW h m z t s a v e r) = a := by
  unfold fieldA packEW
  repeat rw [BitVec.getLsbD_append]
  simp
@[simp] theorem fieldV_packEW : fieldV (packEW h m z t s a v e r) = v := by
  unfold fieldV packEW
  repeat rw [BitVec.getLsbD_append]
  simp
@[simp] theorem fieldE_packEW : fieldE (packEW h m z t s a v e r) = e := by
  unfold fieldE packEW
  repeat rw [BitVec.getLsbD_append]
  simp
@[simp] theorem fieldR_packEW : fieldR (packEW h m z t s a v e r) = r := by
  unfold fieldR packEW
  repeat rw [BitVec.getLsbD_append]
  simp

@[simp] theorem fieldS_packEW : fieldS (packEW h m z t s a v e r) = s := by
  refine BitVec.eq_of_getLsbD_eq fun i hi => ?_
  unfold fieldS packEW
  rw [BitVec.getLsbD_extractLsb']
  interval_cases i <;> (repeat rw [BitVec.getLsbD_append]) <;> simp

/-- Bits 15:12 of a packed word are 0 (R61). -/
@[simp] theorem reserved_packEW : (packEW h m z t s a v e r).extractLsb' 12 4 = 0#4 := by
  refine BitVec.eq_of_getLsbD_eq fun i hi => ?_
  unfold packEW
  rw [BitVec.getLsbD_extractLsb']
  interval_cases i <;> (repeat rw [BitVec.getLsbD_append]) <;> simp

/-- A packed word always decodes, to the operation the map selects. -/
theorem decode_packEW :
    decode (packEW h m z t s a v e r) =
      .ok ((selectOp (packEW h m z t s a v e r)).readOperands (packEW h m z t s a v e r)) := by
  simp [decode]
end fields

end Sys2Proof
end

