-- ==== Sys2Proof/Laws/Memory.lean ====
section
/-! SUPPORT. The laws of the frame buffer: read after write, and the canonical form kept by every memory operation. -/

namespace Sys2Proof.Machine

@[simp] theorem Memory.read_nil (i : Nat) : Memory.read [] i = none := rfl

/-- The byte just written is read back. -/
theorem Memory.read_write_same (m : Memory) (i : Nat) (v : Byte) : (m.write i v).read i = some v := by
  induction m with
  | nil => simp [Memory.write, Memory.read]
  | cons c rest ih =>
    obtain ⟨j, b⟩ := c
    unfold Memory.write
    split_ifs with h1 h2
    · simp [Memory.read]
    · simp [Memory.read]
    · simpa [Memory.read, show j ≠ i from fun h => h2 h.symm] using ih

/-- A write leaves every other byte alone. -/
theorem Memory.read_write_other (m : Memory) {i j : Nat} (v : Byte) (h : j ≠ i) :
    (m.write i v).read j = m.read j := by
  induction m with
  | nil => simp [Memory.write, Memory.read, h.symm]
  | cons c rest ih =>
    obtain ⟨k, b⟩ := c
    unfold Memory.write
    split_ifs with h1 h2
    · simp [Memory.read, h.symm]
    · subst h2; simp [Memory.read, h.symm]
    · simp only [Memory.read]; split_ifs <;> [rfl; exact ih]

/-- What a read gives after a write, in one equation. -/
theorem Memory.read_write (m : Memory) (i j : Nat) (v : Byte) :
    (m.write i v).read j = if j = i then some v else m.read j := by
  split_ifs with h
  · subst h; exact m.read_write_same j v
  · exact m.read_write_other v h

/-- The indices a write can leave listed. -/
theorem Memory.mem_write {m : Memory} {i : Nat} {v : Byte} {c : Host.Cell} (h : c ∈ m.write i v) :
    c = (i, v) ∨ c ∈ m := by
  induction m with
  | nil => simpa [Memory.write] using h
  | cons d rest ih =>
    obtain ⟨j, b⟩ := d
    unfold Memory.write at h
    split_ifs at h with h1 h2
    · simpa using h
    · rcases List.mem_cons.1 h with h | h
      · exact .inl h
      · exact .inr (List.mem_cons_of_mem _ h)
    · rcases List.mem_cons.1 h with h | h
      · exact .inr (h ▸ List.mem_cons_self)
      · exact (ih h).imp_right (List.mem_cons_of_mem _)

theorem Memory.wf_nil : Memory.wf [] := by decide

/-- A write at an index that exists keeps the canonical form. -/
theorem Memory.wf_write {m : Memory} {i : Nat} (v : Byte) (hi : i < Config.fbDepth) (h : Memory.wf m) :
    Memory.wf (m.write i v) := by
  refine ⟨?_, fun c hc => ?_⟩
  · replace h := h.1
    induction m with
    | nil => simp [Memory.write]
    | cons d rest ih =>
      obtain ⟨j, b⟩ := d
      rw [List.pairwise_cons] at h
      unfold Memory.write
      split_ifs with h1 h2
      · refine List.pairwise_cons.2 ⟨fun c hc => ?_, List.pairwise_cons.2 h⟩
        rcases List.mem_cons.1 hc with rfl | hc
        · exact h1
        · exact lt_trans h1 (h.1 c hc)
      · subst h2; exact List.pairwise_cons.2 ⟨h.1, h.2⟩
      · refine List.pairwise_cons.2 ⟨fun c hc => ?_, ih h.2⟩
        rcases Memory.mem_write hc with rfl | hc
        · exact lt_of_le_of_ne (not_lt.1 h1) (fun e => h2 e.symm)
        · exact h.1 c hc
  · rcases Memory.mem_write hc with rfl | hc
    · exact hi
    · exact h.2 c hc

/-- A canonical memory holds no byte at an index that does not exist. -/
theorem Memory.read_eq_none_of_wf {m : Memory} (h : Memory.wf m) {i : Nat} (hi : Config.fbDepth ≤ i) :
    m.read i = none := by
  induction m with
  | nil => rfl
  | cons d rest ih =>
    obtain ⟨j, b⟩ := d
    have hj : j < Config.fbDepth := h.2 (j, b) List.mem_cons_self
    rw [Memory.read, if_neg (by omega)]
    exact ih ⟨(List.pairwise_cons.1 h.1).2, fun c hc => h.2 c (List.mem_cons_of_mem _ hc)⟩

/-- The first entry's index bounds every read of a canonical memory from below. -/
theorem Memory.read_eq_none_of_forall_lt {m : Memory} {i : Nat} (h : ∀ c ∈ m, i < c.1) : m.read i = none := by
  induction m with
  | nil => rfl
  | cons d rest ih =>
    obtain ⟨j, b⟩ := d
    have hj : i < j := h (j, b) List.mem_cons_self
    rw [Memory.read, if_neg (by omega)]
    exact ih fun c hc => h c (List.mem_cons_of_mem _ hc)

/-- Canonical memories that read the same are equal. -/
theorem Memory.ext_of_wf {m n : Memory} (hm : Memory.wf m) (hn : Memory.wf n) (h : ∀ i, m.read i = n.read i) :
    m = n := by
  induction m generalizing n with
  | nil =>
    cases n with
    | nil => rfl
    | cons d rest => have := h d.1; simp [Memory.read] at this
  | cons c rest ih =>
    obtain ⟨j, b⟩ := c
    cases n with
    | nil => have := h j; simp [Memory.read] at this
    | cons d rest' =>
      obtain ⟨k, b'⟩ := d
      obtain ⟨hm1, hm2⟩ := List.pairwise_cons.1 hm.1
      obtain ⟨hn1, hn2⟩ := List.pairwise_cons.1 hn.1
      have hjk : j = k := by
        rcases lt_trichotomy j k with hlt | heq | hgt
        · have hr := h j
          rw [Memory.read_eq_none_of_forall_lt (m := (k, b') :: rest')] at hr
          · simp [Memory.read] at hr
          · intro c hc
            rcases List.mem_cons.1 hc with rfl | hc
            · exact hlt
            · exact lt_trans hlt (hn1 c hc)
        · exact heq
        · have hr := h k
          rw [Memory.read_eq_none_of_forall_lt (m := (j, b) :: rest)] at hr
          · simp [Memory.read] at hr
          · intro c hc
            rcases List.mem_cons.1 hc with rfl | hc
            · exact hgt
            · exact lt_trans hgt (hm1 c hc)
      subst hjk
      have hb : b = b' := by simpa [Memory.read] using h j
      subst hb
      have : rest = rest' := by
        refine ih ⟨hm2, fun c hc => hm.2 c (List.mem_cons_of_mem _ hc)⟩
          ⟨hn2, fun c hc => hn.2 c (List.mem_cons_of_mem _ hc)⟩ fun i => ?_
        by_cases hij : j = i
        · subst hij
          rw [Memory.read_eq_none_of_forall_lt hm1, Memory.read_eq_none_of_forall_lt hn1]
        · simpa [Memory.read, hij] using h i
      rw [this]

end Sys2Proof.Machine
end

