-- ==== Sys2Proof/Laws/Operands.lean ====
section
/-! SUPPORT. The operands: the codec, the decoded byte of each state, and the length arithmetic on numbers. -/

namespace Sys2Proof.Machine

/-- The codec is its own inverse under either flag. -/
@[simp] theorem codecIf_codecIf (k : Bool) (x : Byte) : codecIf k (codecIf k x) = x := by
  cases k
  · rfl
  · simp [codecIf, codec]

/-- In `IDLE` the decoded byte is the one of R72 and R73. -/
theorem decodedByte_of_idle {s : State} (h : s.st = .idle) : s.decodedByte = s.boundaryByte := by
  simp [State.decodedByte, State.codecFlag, State.boundaryByte, h]

/-- In every other state it is the one of R74 to R80. -/
theorem decodedByte_of_ne_idle {s : State} (h : s.st ≠ .idle) : s.decodedByte = s.frameByte := by
  simp [State.decodedByte, State.codecFlag, State.frameByte, h]

@[simp] theorem shortLength_toNat (d : Byte) : (shortLength d).toNat = d.toNat := by
  have := d.isLt
  simp only [shortLength, BitVec.toNat_setWidth]
  omega

@[simp] theorem remainingAfter_toNat (l : Length) : (remainingAfter l).toNat = l.toNat + 1 := by
  have := l.isLt
  simp only [remainingAfter, BitVec.toNat_add, BitVec.toNat_setWidth, BitVec.toNat_ofNat]
  omega

/-- The high byte of two bytes side by side. -/
theorem high_append (a b : Byte) : (a ++ b : Length).extractLsb' 8 8 = a := by
  refine BitVec.eq_of_getLsbD_eq fun i hi => ?_
  rw [BitVec.getLsbD_extractLsb', BitVec.getLsbD_append]
  simp [hi]

/-- The low byte of two bytes side by side. -/
theorem low_append (a b : Byte) : (a ++ b : Length).extractLsb' 0 8 = b := by
  refine BitVec.eq_of_getLsbD_eq fun i hi => ?_
  rw [BitVec.getLsbD_extractLsb', BitVec.getLsbD_append]
  simp [hi]

/-- A length is its two bytes side by side. -/
theorem append_high_low (l : Length) : (l.extractLsb' 8 8 ++ l.extractLsb' 0 8 : Length) = l := by
  refine BitVec.eq_of_getLsbD_eq fun i hi => ?_
  rw [BitVec.getLsbD_append]
  split_ifs with h
  · simp [h]
  · have : 8 + (i - 8) = i := by omega
    simp [this, show i - 8 < 8 by omega]

@[simp] theorem withHighByte_high (l : Length) (d : Byte) : (withHighByte l d).extractLsb' 8 8 = d :=
  high_append d _

@[simp] theorem withHighByte_low (l : Length) (d : Byte) :
    (withHighByte l d).extractLsb' 0 8 = l.extractLsb' 0 8 := low_append d _

@[simp] theorem withLowByte_high (l : Length) (d : Byte) :
    (withLowByte l d).extractLsb' 8 8 = l.extractLsb' 8 8 := high_append _ d

@[simp] theorem withLowByte_low (l : Length) (d : Byte) : (withLowByte l d).extractLsb' 0 8 = d := low_append _ d

@[simp] theorem isEscape_iff (d : Byte) : isEscape d = true ↔ d = 0x00#8 := by simp [isEscape]

@[simp] theorem isSync_iff (d : Byte) : isSync d = true ↔ d = Config.syncValue := by simp [isSync]

@[simp] theorem isEscape_eq_false_iff (d : Byte) : isEscape d = false ↔ d ≠ 0x00#8 := by simp [isEscape]

@[simp] theorem isSync_eq_false_iff (d : Byte) : isSync d = false ↔ d ≠ Config.syncValue := by simp [isSync]

/-- The decoded byte as the rules of 41_assembly.md write it. -/
theorem unmasked_eq_codecIf (k : Bool) (x : Byte) : unmasked k x = codecIf k x := by
  cases k <;> simp [unmasked, codecIf, codec, Config.key]

end Sys2Proof.Machine
end

