-- ==== Sys2Proof/Laws/State.lean ====
section
/-! SUPPORT. One lemma per field per named update of the state. -/

namespace Sys2Proof.Machine

section clocked
variable (s t : State)

@[simp] theorem clocked_st : (s.clocked t).st = t.st := rfl
@[simp] theorem clocked_cx : (s.clocked t).cx = t.cx := rfl
@[simp] theorem clocked_idx : (s.clocked t).idx = t.idx := rfl
@[simp] theorem clocked_plen : (s.clocked t).plen = t.plen := rfl
@[simp] theorem clocked_rem : (s.clocked t).rem = t.rem := rfl
@[simp] theorem clocked_ext : (s.clocked t).ext = t.ext := rfl
@[simp] theorem clocked_acc : (s.clocked t).acc = t.acc := rfl
@[simp] theorem clocked_syncOk : (s.clocked t).syncOk = t.syncOk := rfl
@[simp] theorem clocked_malformed : (s.clocked t).malformed = t.malformed := rfl
@[simp] theorem clocked_tst : (s.clocked t).tst = t.tst := rfl
@[simp] theorem clocked_fb : (s.clocked t).fb = t.fb := rfl
@[simp] theorem clocked_hunt : (s.clocked t).hunt = t.hunt := rfl
@[simp] theorem clocked_pins : (s.clocked t).pins = s.nextPins := rfl
@[simp] theorem clocked_stim : (s.clocked t).stim = s.stim.tail := rfl
end clocked

section raiseMalformed
variable (s : State)

@[simp] theorem raiseMalformed_st : (raiseMalformed s).st = .stopped := rfl
@[simp] theorem raiseMalformed_cx : (raiseMalformed s).cx = s.cx := rfl
@[simp] theorem raiseMalformed_idx : (raiseMalformed s).idx = s.idx := rfl
@[simp] theorem raiseMalformed_plen : (raiseMalformed s).plen = s.plen := rfl
@[simp] theorem raiseMalformed_rem : (raiseMalformed s).rem = s.rem := rfl
@[simp] theorem raiseMalformed_ext : (raiseMalformed s).ext = s.ext := rfl
@[simp] theorem raiseMalformed_acc : (raiseMalformed s).acc = s.acc := rfl
@[simp] theorem raiseMalformed_syncOk : (raiseMalformed s).syncOk = s.syncOk := rfl
@[simp] theorem raiseMalformed_malformed : (raiseMalformed s).malformed = true := rfl
@[simp] theorem raiseMalformed_tst : (raiseMalformed s).tst = s.st := rfl
@[simp] theorem raiseMalformed_fb : (raiseMalformed s).fb = s.fb := rfl
@[simp] theorem raiseMalformed_hunt : (raiseMalformed s).hunt = s.hunt := rfl
@[simp] theorem raiseMalformed_pins : (raiseMalformed s).pins = s.pins := rfl
@[simp] theorem raiseMalformed_stim : (raiseMalformed s).stim = s.stim := rfl
end raiseMalformed

section resetRegisters
variable (s : State)

@[simp] theorem resetRegisters_st : (resetRegisters s).st = .idle := rfl
@[simp] theorem resetRegisters_cx : (resetRegisters s).cx = false := rfl
@[simp] theorem resetRegisters_idx : (resetRegisters s).idx = 0#17 := rfl
@[simp] theorem resetRegisters_plen : (resetRegisters s).plen = 0x0000#16 := rfl
@[simp] theorem resetRegisters_rem : (resetRegisters s).rem = 0#17 := rfl
@[simp] theorem resetRegisters_ext : (resetRegisters s).ext = false := rfl
@[simp] theorem resetRegisters_acc : (resetRegisters s).acc = 0x00#8 := rfl
@[simp] theorem resetRegisters_syncOk : (resetRegisters s).syncOk = false := rfl
@[simp] theorem resetRegisters_malformed : (resetRegisters s).malformed = false := rfl
@[simp] theorem resetRegisters_tst : (resetRegisters s).tst = .idle := rfl
@[simp] theorem resetRegisters_fb : (resetRegisters s).fb = [] := rfl
@[simp] theorem resetRegisters_hunt : (resetRegisters s).hunt = s.hunt := rfl
@[simp] theorem resetRegisters_pins : (resetRegisters s).pins = s.pins := rfl
@[simp] theorem resetRegisters_stim : (resetRegisters s).stim = s.stim := rfl
end resetRegisters

/-- `RESET` leaves the reset state of the same build, with the pins and later inputs left alone. -/
theorem resetRegisters_eq_resetOf (s : State) :
    resetRegisters s = { State.resetOf s.hunt with pins := s.pins, stim := s.stim } := rfl

/-- Where later inputs are given, the next cycle's pins are the first of them. -/
theorem nextPins_cons {s : State} {p : Pins} {rest : List Pins} (h : s.stim = p :: rest) : s.nextPins = p := by
  simp [State.nextPins, h]

/-- Where none are given, the outside holds. -/
theorem nextPins_nil {s : State} (h : s.stim = []) : s.nextPins = s.pins.hold s.accepts := by
  simp [State.nextPins, h]

end Sys2Proof.Machine
end

