-- ==== Sys2Proof/Laws/Ops.lean ====
section
/-! SUPPORT. What each shared operation can do, said once. -/

namespace Sys2Proof.Machine

/-- Everything `memWrite` can answer with a next state. -/
theorem memWrite_next {s t u : State} {i : Nat} {d : Byte} (h : memWrite s i d t = .next u) :
    i < Config.fbDepth ∧ u = { t with fb := s.fb.write i d } := by
  unfold memWrite at h
  split_ifs at h with hi
  exact ⟨hi, by simpa using h.symm⟩

/-- `memWrite` at an index that exists. -/
theorem memWrite_of_lt {s t : State} {i : Nat} {d : Byte} (hi : i < Config.fbDepth) :
    memWrite s i d t = .next { t with fb := s.fb.write i d } := if_pos hi

/-- `memWrite` at an index that does not exist. -/
theorem memWrite_of_ge {s t : State} {i : Nat} {d : Byte} (hi : Config.fbDepth ≤ i) :
    memWrite s i d t = .fault (.noSuchByte i) := if_neg (not_lt.2 hi)

/-- A read gives a byte exactly when it exists and has been written. -/
theorem memRead_eq_byte {s : State} {i : Nat} {b : Byte} :
    memRead s i = .byte b ↔ i < Config.fbDepth ∧ s.fb.read i = some b := by
  unfold memRead
  split_ifs with h
  · simp [not_lt.2 h]
  · cases hr : s.fb.read i <;> simp [not_le.1 h]

/-! ### The encodings of `st` -/

@[simp] theorem St.ofCode_code (st : St) : St.ofCode st.code = some st := by cases st <;> decide

theorem St.code_injective : Function.Injective St.code := fun a b h => by
  simpa using congrArg St.ofCode h

@[simp] theorem St.midFrame_idle : St.midFrame .idle = false := by decide
@[simp] theorem St.midFrame_stopped : St.midFrame .stopped = false := by decide
@[simp] theorem St.midFrame_done : St.midFrame .done = false := by decide
@[simp] theorem St.midFrame_sel : St.midFrame .sel = true := by decide
@[simp] theorem St.midFrame_len : St.midFrame .len = true := by decide
@[simp] theorem St.midFrame_exth : St.midFrame .exth = true := by decide
@[simp] theorem St.midFrame_extl : St.midFrame .extl = true := by decide
@[simp] theorem St.midFrame_body : St.midFrame .body = true := by decide

/-- A receiving state is every state but `STOPPED` and `DONE`. -/
theorem St.receiving_iff (st : St) : st.receiving = true ↔ st ≠ .stopped ∧ st ≠ .done := by
  cases st <;> decide

/-! ### The input word -/

/-- A word read into levels and written back is itself. -/
theorem Pins.toWord_ofWord (w : InputWord) (r : Index) : (Pins.ofWord w r).toWord = w := by
  refine BitVec.eq_of_getLsbD_eq fun i hi => ?_
  unfold Pins.toWord Pins.ofWord
  interval_cases i <;> (repeat rw [BitVec.getLsbD_append]) <;> simp

end Sys2Proof.Machine
end

