-- ==== Sys2Proof/Laws/PerInstr.lean ====
section
/-! SUPPORT. Statements about every instruction as syntax, one lemma per constructor. -/

namespace Sys2Proof.Laws

/-! ### Bits 15:12 of every encoding are 0 (R61) -/

def ReservedBitsZero.Statement (i : Instr) : Prop := (encode i).extractLsb' 12 4 = 0#4

section
open Instr

theorem ReservedBitsZero.reset (h m z t : Bool) (s : BitVec 4) (a v e : Bool) :
    Statement (.reset h m z t s a v e) := reserved_packEW ..
theorem ReservedBitsZero.endClean (h m z t a v : Bool) : Statement (.endClean h m z t a v) := reserved_packEW ..
theorem ReservedBitsZero.endMalformed (h m z t : Bool) (s : BitVec 3) (a v : Bool) :
    Statement (.endMalformed h m z t s a v) := reserved_packEW ..
theorem ReservedBitsZero.ack (h m z t v e : Bool) : Statement (.ack h m z t v e) := reserved_packEW ..
theorem ReservedBitsZero.huntDiscard (z t a : Bool) : Statement (.huntDiscard z t a) := reserved_packEW ..
theorem ReservedBitsZero.byteSync (h m z t a : Bool) : Statement (.byteSync h m z t a) := reserved_packEW ..
theorem ReservedBitsZero.byteSel (h m z t a : Bool) : Statement (.byteSel h m z t a) := reserved_packEW ..
theorem ReservedBitsZero.byteLenShort (h m t a : Bool) : Statement (.byteLenShort h m t a) := reserved_packEW ..
theorem ReservedBitsZero.byteLenEsc (h m t a : Bool) : Statement (.byteLenEsc h m t a) := reserved_packEW ..
theorem ReservedBitsZero.byteExth (h m z t a : Bool) : Statement (.byteExth h m z t a) := reserved_packEW ..
theorem ReservedBitsZero.byteExtl (h m z t a : Bool) : Statement (.byteExtl h m z t a) := reserved_packEW ..
theorem ReservedBitsZero.byteBody (h m z a : Bool) : Statement (.byteBody h m z a) := reserved_packEW ..
theorem ReservedBitsZero.byteCk (h m z a : Bool) : Statement (.byteCk h m z a) := reserved_packEW ..
theorem ReservedBitsZero.nop (h m z t : Bool) (s : BitVec 4) (a v e r : Bool) :
    Statement (.nop h m z t s a v e r) := reserved_packEW ..
end

/-! ### The free bits of every encoding are read back -/

def OperandsRead.Statement (i : Instr) : Prop := i.op.readOperands (encode i) = i

theorem low_bits_of_cons (s : BitVec 3) : (1#1 ++ s : BitVec 4).extractLsb' 0 3 = s := by
  revert s; decide

section
open Instr

theorem OperandsRead.reset (h m z t : Bool) (s : BitVec 4) (a v e : Bool) :
    Statement (.reset h m z t s a v e) := by delta Statement op Op.readOperands encode; simp
theorem OperandsRead.endClean (h m z t a v : Bool) : Statement (.endClean h m z t a v) := by
  delta Statement op Op.readOperands encode; simp
theorem OperandsRead.endMalformed (h m z t : Bool) (s : BitVec 3) (a v : Bool) :
    Statement (.endMalformed h m z t s a v) := by
  delta Statement op Op.readOperands encode; simp [low_bits_of_cons]
theorem OperandsRead.ack (h m z t v e : Bool) : Statement (.ack h m z t v e) := by
  delta Statement op Op.readOperands encode; simp
theorem OperandsRead.huntDiscard (z t a : Bool) : Statement (.huntDiscard z t a) := by
  delta Statement op Op.readOperands encode; simp
theorem OperandsRead.byteSync (h m z t a : Bool) : Statement (.byteSync h m z t a) := by
  delta Statement op Op.readOperands encode; simp
theorem OperandsRead.byteSel (h m z t a : Bool) : Statement (.byteSel h m z t a) := by
  delta Statement op Op.readOperands encode; simp
theorem OperandsRead.byteLenShort (h m t a : Bool) : Statement (.byteLenShort h m t a) := by
  delta Statement op Op.readOperands encode; simp
theorem OperandsRead.byteLenEsc (h m t a : Bool) : Statement (.byteLenEsc h m t a) := by
  delta Statement op Op.readOperands encode; simp
theorem OperandsRead.byteExth (h m z t a : Bool) : Statement (.byteExth h m z t a) := by
  delta Statement op Op.readOperands encode; simp
theorem OperandsRead.byteExtl (h m z t a : Bool) : Statement (.byteExtl h m z t a) := by
  delta Statement op Op.readOperands encode; simp
theorem OperandsRead.byteBody (h m z a : Bool) : Statement (.byteBody h m z a) := by
  delta Statement op Op.readOperands encode; simp
theorem OperandsRead.byteCk (h m z a : Bool) : Statement (.byteCk h m z a) := by
  delta Statement op Op.readOperands encode; simp
theorem OperandsRead.nop (h m z t : Bool) (s : BitVec 4) (a v e r : Bool) :
    Statement (.nop h m z t s a v e r) := by delta Statement op Op.readOperands encode; simp
end

end Sys2Proof.Laws
end

