-- ==== Sys2Proof/Laws/Step.lean ====
section
/-! SUPPORT. What one step can do, said once. -/

namespace Sys2Proof.Machine

/-- Reading an operation's free bits gives an instruction of that operation. -/
@[simp] theorem op_readOperands (op : Op) (w : OpWord) : (op.readOperands w).op = op := by cases op <;> rfl

/-- An instruction's effect depends on its operation alone: the free bits of the word carry no value. -/
theorem exec_eq_of_op_eq {i j : Instr} (h : i.op = j.op) (s : State) : exec i s = exec j s := by
  cases i <;> cases j <;> first | rfl | cases h

/-- The decode word of a cycle always decodes. -/
theorem decode_opWord (s : State) : decode s.opWord = .ok ((selectOp s.opWord).readOperands s.opWord) :=
  decode_packEW ..

/-- The operation of a cycle is the one the map selects. -/
theorem operation_eq (s : State) : s.operation = some (selectOp s.opWord) := by
  simp [State.operation, decode_opWord]

/-- A step is the selected operation, then the next cycle's pins. -/
theorem step_eq (s : State) :
    step s =
      match exec ((selectOp s.opWord).readOperands s.opWord) s with
      | .next t => .next (s.clocked t)
      | .fault f => .fault f
      | .refused r => .refused r := by
  simp only [step, decode_opWord]
  all_goals (cases exec ((selectOp s.opWord).readOperands s.opWord) s <;> rfl)

/-- Everything a step that answers a next state has done. -/
theorem step_next {s t : State} (h : step s = .next t) :
    ∃ u, exec ((selectOp s.opWord).readOperands s.opWord) s = .next u ∧ t = s.clocked u := by
  rw [step_eq] at h
  split at h
  · exact ⟨_, ‹_›, by simpa using h.symm⟩
  · cases h
  · cases h

/-- A step whose operation is known runs that operation, on any instruction of it. -/
theorem step_of_runs {s : State} {i : Instr} (h : s.runs i.op) :
    step s =
      match exec i s with
      | .next t => .next (s.clocked t)
      | .fault f => .fault f
      | .refused r => .refused r := by
  have hop : selectOp s.opWord = i.op := by
    have := h
    rw [State.runs, operation_eq] at this
    exact Option.some.inj this
  rw [step_eq, exec_eq_of_op_eq (j := i) (by simpa using hop)]

/-- No instruction is refused. -/
theorem exec_ne_refused (i : Instr) (s : State) (r : Refusal) : exec i s ≠ .refused r := by
  have hm : ∀ a b d t, memWrite a b d t ≠ .refused r := by
    intro a b d t h
    unfold memWrite at h
    split_ifs at h
  intro h
  cases i <;> first | exact hm _ _ _ _ h | cases h

/-- One more edge at the front of a run, of any machine. -/
theorem run_succ_of_next (M : Host.Core) {n : Nat} {s u : M.State} (h : M.step s = .next u) :
    M.run (n + 1) s = M.run n u := by rw [Host.Core.run, h]

/-- The first edge of a run that ends in a next state, of any machine. -/
theorem run_succ_next (M : Host.Core) {n : Nat} {s t : M.State} (h : M.run (n + 1) s = .next t) :
    ∃ u, M.step s = .next u ∧ M.run n u = .next t := by
  rw [Host.Core.run] at h
  split at h
  · exact ⟨_, ‹_›, h⟩
  · cases h
  · cases h

/-- A run of edges from a reachable state stays among the reachable states. -/
theorem Reachable.of_run {n : Nat} {s t : State} (hs : Reachable s) (h : Sys2Proof.core.run n s = .next t) :
    Reachable t := by
  induction n generalizing s with
  | zero => cases h; exact hs
  | succ n ih =>
    obtain ⟨u, hu, hr⟩ := run_succ_next Sys2Proof.core h
    exact ih (hs.edge hu) hr

/-- The state of reset with any later levels is reachable. -/
theorem reachable_driven (hunt : Bool) (ps : List Pins) : Reachable ((State.resetOf hunt).driven ps) := by
  cases ps with
  | nil => exact .start hunt .low []
  | cons p rest => exact .start hunt p rest

end Sys2Proof.Machine
end

