-- ==== Sys2Proof/Tests/Slice0.lean ====
section
/-! SUPPORT. Small tests of the model, their expected values from 95_test_vectors.md and the worked examples of the
rules, and a witness for every statement with hypotheses. -/

namespace Sys2Proof.Machine.Tests

/-! ### Well-formedness: each check refuses an ill-formed word -/

/-- `S = 0011` is reserved (R20). -/
theorem test_wf_reserved_state : (Instr.reset false false false false 0b0011#4 false false false).wellFormed = false := by
  decide
/-- `S = 1101` is reserved (R20). -/
theorem test_wf_reserved_mid : (Instr.endMalformed false false false false 0b101#3 false false).wellFormed = false := by
  decide
/-- One byte is not both 0x00 and 0xFF (R61). -/
theorem test_wf_two_bytes : (Instr.byteSel false true true false false).wellFormed = false := by decide
/-- Row 5 takes this word before row 6 (R62). -/
theorem test_wf_hunted : (Instr.byteSync true false false false false).wellFormed = false := by decide
/-- A byte is accepted here, so it is no NOP cycle (R63). -/
theorem test_wf_not_nop : (Instr.nop false false false false 0b1000#4 false true false false).wellFormed = false := by
  decide
/-- V4's word is one of a cycle. -/
theorem test_wf_byteSel : (Instr.byteSel false false false false false).wellFormed = true := by decide

/-! ### Decoding: one word for each operation, from the `EW` columns of 95_test_vectors.md -/

theorem test_decode_reset :
    decode 0b0000001011001111#16 = .ok (.reset false false true false 0b1100#4 true true true) := by decide
theorem test_decode_endClean : decode 0b0000010000000110#16 = .ok (.endClean false true false false false true) := by decide
theorem test_decode_endMalformed :
    decode 0b0000001011000110#16 = .ok (.endMalformed false false true false 0b100#3 false true) := by decide
theorem test_decode_ack : decode 0b0000001000101010#16 = .ok (.ack false false true false false true) := by decide
theorem test_decode_huntDiscard : decode 0b0000101000000100#16 = .ok (.huntDiscard true false false) := by decide
theorem test_decode_byteSync : decode 0b0000110000000100#16 = .ok (.byteSync true true false false false) := by decide
theorem test_decode_byteSel : decode 0b0000000010000100#16 = .ok (.byteSel false false false false false) := by decide
theorem test_decode_byteLenShort : decode 0b0000000010011100#16 = .ok (.byteLenShort false false false true) := by decide
theorem test_decode_byteLenEsc : decode 0b0000001010010100#16 = .ok (.byteLenEsc false false false false) := by decide
theorem test_decode_byteExth : decode 0b0000010010100100#16 = .ok (.byteExth false true false false false) := by decide
theorem test_decode_byteExtl : decode 0b0000001010110100#16 = .ok (.byteExtl false false true false false) := by decide
theorem test_decode_byteBody : decode 0b0000010011000100#16 = .ok (.byteBody false true false false) := by decide
theorem test_decode_byteCk : decode 0b0000010111000100#16 = .ok (.byteCk false true false false) := by decide
theorem test_decode_nop :
    decode 0b0000001111000000#16 = .ok (.nop false false true true 0b1100#4 false false false false) := by decide
/-- Bits 15:12 are 0 in every decode word (R61). -/
theorem test_decode_reserved : decode 0x8004#16 = .error .reservedBits := by decide

/-! ### One cycle of each operation -/

/-- The state of an answer, or `s` where there is none. -/
def nextOr (s : State) : Host.Outcome State Fault Refusal → State
  | .next t => t
  | .fault _ => s
  | .refused _ => s

/-- The state before the cycle that samples `iw`, after a script from reset. -/
def stateAfter (hunt : Bool) (script : List Line) (iw : InputWord) : State :=
  nextOr .reset (Sys2Proof.core.run (scriptPins script).length
    ((State.resetOf hunt).driven (scriptPins script ++ [Pins.ofWord iw 0#17])))

/-- The state a step answers, or the state itself where it stops. -/
def after (s : State) : State := nextOr s (step s)

/-- What a row of 95_test_vectors.md shows: `EW`, the operation, `STATUS`, `idx`, `plen` and `rem` after the edge. -/
def row (s : State) : OpWord × Option Op × StatusWord × Index × Length × Index :=
  (s.opWord, s.operation, (after s).statusWord, (after s).idx, (after s).plen, (after s).rem)

/-- Decoded bytes, as a script. -/
def sent (bs : List Byte) : List Line := [.reset, .bytes bs]

/-- V2. -/
theorem test_byteSync_codec :
    row (stateAfter false [.codec true, .reset] 0x09CE#13) =
      (0x0404#16, some .byteSync, 0x00000B28#32, 1#17, 0#16, 0#17) := by decide
/-- V22. -/
theorem test_byteSync_hunting :
    row (stateAfter true [.reset] 0x01FF#13) =
      (0x0C04#16, some .byteSync, 0x00000928#32, 1#17, 0#16, 0#17) := by decide
/-- V20: wire 0xFF is 0xCE, no sync. -/
theorem test_huntDiscard :
    row (stateAfter true [.codec true, .reset] 0x09FF#13) =
      (0x0804#16, some .huntDiscard, 0x00000820#32, 0#17, 0#16, 0#17) := by decide
/-- V4. -/
theorem test_byteSel :
    row (stateAfter false (sent [0xFF]) 0x0112#13) =
      (0x0084#16, some .byteSel, 0x00000929#32, 2#17, 0#16, 0#17) := by decide
/-- V6. -/
theorem test_byteLenShort :
    row (stateAfter false (sent [0xFF, 0x55]) 0x01FF#13) =
      (0x0494#16, some .byteLenShort, 0x00FF090C#32, 3#17, 0x00FF#16, 256#17) := by decide
/-- V9: wire 0x31 is the escape under `cx = 1`. -/
theorem test_byteLenEsc :
    row (stateAfter false [.codec true, .reset, .bytes [0xCE, 0x64]] 0x0931#13) =
      (0x0294#16, some .byteLenEsc, 0x00000B6A#32, 3#17, 0#16, 0#17) := by decide
/-- V10; `CK = 0`, since `acc` is 0xFF (R39). -/
theorem test_byteExth :
    row (stateAfter false (sent [0xFF, 0x55, 0x00]) 0x01FF#13) =
      (0x04A4#16, some .byteExth, 0x00FF094B#32, 4#17, 0xFF00#16, 0#17) := by decide
/-- V11: `rem` needs 17 bits. -/
theorem test_byteExtl :
    row (stateAfter false (sent [0xFF, 0x55, 0x00, 0xFF]) 0x01FF#13) =
      (0x04B4#16, some .byteExtl, 0x00FE094C#32, 5#17, 0xFFFF#16, 65536#17) := by decide
/-- V15: the sum wraps. -/
theorem test_byteBody :
    row (stateAfter false (sent [0xFF, 0x55, 0x02, 0x80]) 0x01FF#13) =
      (0x04C4#16, some .byteBody, 0x0081090C#32, 5#17, 2#16, 1#17) := by decide
/-- V17. -/
theorem test_byteCk :
    row (stateAfter false (sent [0xFF, 0x55, 0x01, 0x00]) 0x01FE#13) =
      (0x01C4#16, some .byteCk, 0x00FF0112#32, 5#17, 1#16, 0#17) := by decide
/-- 95_test_vectors.md 2.4: `END` after `FF 55 00 00`. -/
theorem test_endMalformed :
    row (stateAfter false (sent [0xFF, 0x55, 0x00, 0x00]) 0x0200#13) =
      (0x02B2#16, some .endMalformed, 0x0000B5E1#32, 4#17, 0#16, 0#17) := by decide
/-- 2.4: a byte with `src_end` in `IDLE`. -/
theorem test_endClean :
    row (stateAfter false [.reset] 0x03FF#13) =
      (0x0406#16, some .endClean, 0x00000421#32, 0#17, 0#16, 0#17) := by decide
/-- 2.4: `frame_ack` and a byte in `DONE`. -/
theorem test_ack :
    row (stateAfter false (sent [0xFF, 0x55, 0x02, 0x00, 0x00, 0xFE]) 0x05FF#13) =
      (0x042C#16, some .ack, 0x00000920#32, 6#17, 2#16, 0#17) := by decide
/-- 2.4: every input at once, mid-frame. -/
theorem test_reset :
    row (stateAfter false (sent [0xFF, 0x55, 0x02, 0x00]) 0x1700#13) =
      (0x02CF#16, some .reset, 0x00000820#32, 0#17, 0#16, 0#17) := by decide
/-- 2.4: a byte in `DONE`. -/
theorem test_nop :
    row (stateAfter false (sent [0xFF, 0x55, 0x02, 0x00, 0x00, 0xFE]) 0x01FF#13) =
      (0x0424#16, some .nop, 0x00000132#32, 6#17, 2#16, 0#17) := by decide
/-- P2, cycle 18: the bytes held. -/
theorem test_buffer :
    (after (stateAfter false [.codec true, .reset, .bytes [0xCE, 0x64, 0x31, 0x31, 0x35, 0x35, 0x31, 0x1F, 0x33]]
      0x09F9#13)).fb.map Prod.snd = [0xFF, 0x55, 0x00, 0x00, 0x04, 0x04, 0x00, 0x2E, 0x02, 0xC8] := by decide

/-! ### Witnesses: states that meet the hypotheses of the statements -/

/-- `stateAfter` never leaves the reachable states. -/
theorem reachable_stateAfter (hunt : Bool) (script : List Line) (iw : InputWord) :
    Reachable (stateAfter hunt script iw) := by
  unfold stateAfter
  cases h : Sys2Proof.core.run (scriptPins script).length
    ((State.resetOf hunt).driven (scriptPins script ++ [Pins.ofWord iw 0#17])) with
  | next t => exact Reachable.of_run (reachable_driven hunt _) h
  | fault _ => exact .start Config.syncHuntDefault .low []
  | refused _ => exact .start Config.syncHuntDefault .low []

/-- A reachable state at the head of each operation. -/
def atReset : State := stateAfter false (sent [0xFF, 0x55, 0x02, 0x00]) 0x1100#13
def atEndClean : State := stateAfter false [.reset] 0x0300#13
def atEndMalformed : State := stateAfter false (sent [0xFF, 0x55, 0x02]) 0x0200#13
def atAck : State := stateAfter false (sent [0xFF, 0x55, 0x02, 0x00, 0x00, 0xFE]) 0x0600#13
def atHuntDiscard : State := stateAfter true [.reset] 0x0100#13
def atByteSync : State := stateAfter false [.reset] 0x01FF#13
def atByteSel : State := stateAfter false (sent [0xFF]) 0x0155#13
def atByteLenShort : State := stateAfter false (sent [0xFF, 0x55]) 0x01FF#13
def atByteLenEsc : State := stateAfter false (sent [0xFF, 0x55]) 0x0100#13
def atByteExth : State := stateAfter false (sent [0xFF, 0x55, 0x00]) 0x01FF#13
def atByteExtl : State := stateAfter false (sent [0xFF, 0x55, 0x00, 0x00]) 0x0100#13
def atByteBody : State := stateAfter false (sent [0xFF, 0x55, 0x01]) 0x01FF#13
def atByteCk : State := stateAfter false (sent [0xFF, 0x55, 0x00, 0x00, 0x00]) 0x0101#13
def atNop : State := stateAfter false (sent [0xFF, 0x55, 0x01]) 0x0000#13
/-- A held frame with a wrong sum, a held frame of length 0, and both ways to be stopped. -/
def heldBad : State := stateAfter false (sent [0xFF, 0x55, 0x01, 0x00, 0xFE]) 0x0000#13
def heldEmpty : State := stateAfter false (sent [0xFF, 0x55, 0x00, 0x00, 0x00, 0x00]) 0x0000#13
def stoppedClean : State := stateAfter false [.reset, .finish] 0x0200#13
def stoppedMalformed : State := stateAfter false [.reset, .byte 0xFF, .finish] 0x1000#13

/-- The last index a byte is stored at, and the first past the buffer (R40): states of the statement's range, not
reached by a run. -/
def atLastIndex : State := { atByteBody with idx := 65540#17 }
def pastBuffer : State := { atByteBody with idx := 65541#17 }

theorem witness_InputWordAndHandshake : heldBad.out.inReady = false ∧ atReset.out.inReady = false := by decide

theorem witness_ResetOperation :
    atReset.pins.rst = true ∧ step atReset = .next (after atReset) ∧
      stoppedMalformed.st = .stopped ∧ step stoppedMalformed = .next (after stoppedMalformed) ∧
      (after stoppedMalformed).st ≠ .stopped ∧
      ∃ s t u : State, s.pins.rst = true ∧ step s = .next t ∧ t.pins.rst = true ∧ step t = .next u :=
  ⟨by decide, rfl, by decide, rfl, by decide,
    { atReset with stim := [atReset.pins] }, _, _, by decide, rfl, by decide, rfl⟩

theorem witness_EndCleanOperation :
    Reachable atEndClean ∧ atEndClean.runs .endClean ∧ step atEndClean = .next (after atEndClean) ∧
      atEndClean.pins.srcEnd = true := ⟨reachable_stateAfter .., by decide, rfl, by decide⟩

theorem witness_EndMalformedOperation :
    Reachable atEndMalformed ∧ atEndMalformed.runs .endMalformed ∧
      step atEndMalformed = .next (after atEndMalformed) := ⟨reachable_stateAfter .., by decide, rfl⟩

theorem witness_AckOperation :
    atAck.runs .ack ∧ step atAck = .next (after atAck) ∧ atAck.st = .done ∧ (after atAck).pins.srcEnd = true ∧
      (after atAck).pins.rst = false ∧ atNop.st ≠ .done := ⟨by decide, rfl, by decide⟩

theorem witness_HuntDiscardOperation : Reachable atHuntDiscard ∧ atHuntDiscard.runs .huntDiscard :=
  ⟨reachable_stateAfter .., by decide⟩

theorem witness_ByteSyncOperation : Reachable atByteSync ∧ atByteSync.runs .byteSync :=
  ⟨reachable_stateAfter .., by decide⟩

theorem witness_ByteSelOperation : Reachable atByteSel ∧ atByteSel.runs .byteSel :=
  ⟨reachable_stateAfter .., by decide⟩

theorem witness_ByteLenShortOperation :
    Reachable atByteLenShort ∧ atByteLenShort.runs .byteLenShort ∧ atByteLenShort.st = .len :=
  ⟨reachable_stateAfter .., by decide⟩

theorem witness_ByteLenEscOperation :
    Reachable atByteLenEsc ∧ atByteLenEsc.runs .byteLenEsc ∧ Reachable atByteSel ∧ atByteSel.st = .sel ∧
      Reachable atByteExth ∧ atByteExth.st = .exth :=
  ⟨reachable_stateAfter .., by decide, reachable_stateAfter .., by decide, reachable_stateAfter .., by decide⟩

theorem witness_ByteExthOperation : Reachable atByteExth ∧ atByteExth.runs .byteExth ∧ atByteExth.st = .exth :=
  ⟨reachable_stateAfter .., by decide⟩

theorem witness_ByteExtlOperation : Reachable atByteExtl ∧ atByteExtl.runs .byteExtl :=
  ⟨reachable_stateAfter .., by decide⟩

theorem witness_ByteBodyOperation :
    Reachable atByteBody ∧ atByteBody.runs .byteBody ∧ atLastIndex.idx.toNat < 65541 ∧ atLastIndex.runs .byteBody :=
  ⟨reachable_stateAfter .., by decide⟩

theorem witness_ByteCkOperation :
    Reachable atByteCk ∧ atByteCk.runs .byteCk ∧ step atByteCk = .next (after atByteCk) ∧
      atByteCk.ext = true ∧ atByteCk.plen = 0x0000#16 ∧ atLastIndex.idx.toNat < 65541 ∧
      heldBad.st = .done ∧ heldBad.pins.frameAck = false ∧ heldBad.pins.rst = false :=
  ⟨reachable_stateAfter .., by decide, rfl, by decide⟩

theorem witness_NopOperation : Reachable atNop ∧ atNop.runs .nop := ⟨reachable_stateAfter .., by decide⟩

/-- Words of rows 1, 3, 5 and 13; rows 5 and 6 share the first word. -/
theorem witness_OperationMapSelectsOneRow :
    selectOp 0x0804#16 = .huntDiscard ∧ (⟨.huntDiscard, 0x0CF7#16, 0x0804#16⟩ : OpRow) ∈ opMap ∧
      (⟨.huntDiscard, 0x0CF7#16, 0x0804#16⟩ : OpRow).hits 0x0804#16 = true ∧
      opMap[12]? = some ⟨.byteCk, 0x01F7#16, 0x01C4#16⟩ ∧
      (⟨.byteCk, 0x01F7#16, 0x01C4#16⟩ : OpRow).hits 0x05C4#16 = true ∧
      opMap[0]? = some ⟨.reset, 0x0001#16, 0x0001#16⟩ ∧
      (⟨.reset, 0x0001#16, 0x0001#16⟩ : OpRow).hits 0x02CF#16 = true := by decide

theorem witness_PriorityOfInputs :
    atReset.pins.rst = true ∧ atEndMalformed.pins.rst = false ∧ atEndMalformed.pins.srcEnd = true ∧
      atEndMalformed.st.code.getLsbD 3 = true := by decide

theorem witness_DecodeEncodeRoundTrip :
    (Instr.endMalformed true true false true 0b100#3 true true).wellFormed = true := by decide

theorem witness_DecodedWordsEncodeBack :
    decode 0x0FFF#16 = .ok (.reset true true true true 0b1111#4 true true true) := by decide

/-- A decoded instruction that completes, and one that stops. -/
theorem witness_StepRunsDecodedInstruction :
    decode atByteCk.opWord = .ok (.byteCk false false false false) ∧
      exec (.byteCk false false false false) { atByteCk with idx := 65541#17 } = .fault (.noSuchByte 65541) ∧
      ∃ t, exec (.byteCk false false false false) atByteCk = .next t := ⟨by decide, rfl, _, rfl⟩

theorem witness_FetchWordIsSelected :
    (0x0FCF#16 : OpWord).extractLsb' 12 4 = 0#4 ∧ legalStateCode (fieldS 0x05CF#16) = true ∧
      oneByte (fieldZ 0x05CF#16) (fieldM 0x05CF#16) = true := by decide

/-- The reset state meets the invariant and steps. -/
theorem witness_InvariantKeptByStep :
    State.Inv State.reset ∧ step State.reset = .next (after State.reset) :=
  ⟨⟨by decide, ⟨by decide, by decide, by decide, by decide, by decide, by decide, by decide⟩,
    ⟨by decide, by decide, by decide⟩, ⟨by decide, by decide⟩, ⟨by decide, by decide, by decide⟩,
    ⟨by decide, by decide⟩⟩, rfl⟩

theorem witness_ReachableStatesAreFramed :
    Reachable atByteSel ∧ atByteSel.st = .sel ∧ Reachable atByteLenEsc ∧ atByteLenEsc.st = .len ∧
      Reachable atByteExth ∧ atByteExth.st = .exth ∧ Reachable atByteExtl ∧ atByteExtl.st = .extl ∧
      Reachable atByteBody ∧ atByteBody.st = .body ∧ Reachable heldEmpty ∧ heldEmpty.st = .done :=
  ⟨reachable_stateAfter .., by decide, reachable_stateAfter .., by decide, reachable_stateAfter .., by decide,
    reachable_stateAfter .., by decide, reachable_stateAfter .., by decide, reachable_stateAfter .., by decide⟩

theorem witness_AccumulatorIsRunningSum :
    Reachable atByteCk ∧ atByteCk.runs .byteCk ∧ step atByteCk = .next (after atByteCk) ∧ 4 < atByteCk.idx.toNat :=
  ⟨reachable_stateAfter .., by decide, rfl, by decide⟩

/-- Both forms, and the extended one with length 0. -/
theorem witness_HeldLengthIsBigEndian :
    Reachable atByteBody ∧ atByteBody.st = .body ∧ atByteBody.ext = false ∧
      Reachable heldEmpty ∧ heldEmpty.st = .done ∧ heldEmpty.ext = true :=
  ⟨reachable_stateAfter .., by decide, by decide, reachable_stateAfter .., by decide, by decide⟩

theorem witness_ByteAcceptance :
    atByteSel.pins.inValid = true ∧ atByteSel.out.inReady = true ∧ heldBad.st = .done ∧ stoppedClean.st = .stopped := by
  decide

theorem witness_CauseOutput :
    stoppedMalformed.out.cause = 1#3 ∧ heldBad.out.cause = 2#3 ∧ stoppedClean.out.cause = 5#3 ∧
      atByteSel.out.cause = 0#3 := by decide

theorem witness_FieldOffsetsOfHeldFrame :
    Reachable heldBad ∧ heldBad.out.frameValid = true ∧ heldBad.plen ≠ 0x0000#16 ∧
      Reachable heldEmpty ∧ heldEmpty.out.frameValid = true ∧ heldEmpty.plen = 0x0000#16 :=
  ⟨reachable_stateAfter .., by decide, by decide, reachable_stateAfter .., by decide, by decide⟩

/-- The read port at the last index, with the byte there written. -/
def lastIndexRead : State :=
  { State.reset with fb := [(65540, 0x02#8)], pins := { Pins.low with raddr := 65540#17 } }

/-- The last index written and not written, the first index past the buffer, and a held frame. -/
theorem witness_ReadPort :
    (lastIndexRead.pins.raddr.toNat < 65541 ∧ lastIndexRead.fb.read lastIndexRead.pins.raddr.toNat = some 0x02#8) ∧
      State.reset.fb.read 65540 = none ∧ 65541 ≤ (65541#17 : Index).toNat ∧
      Reachable heldBad ∧ heldBad.out.frameValid = true ∧ heldBad.pins.raddr.toNat < heldBad.idx.toNat :=
  ⟨by decide, by decide, by decide, reachable_stateAfter .., by decide, by decide⟩

theorem witness_OneBufferWritePerByte :
    (step atReset = .next (after atReset) ∧ atReset.pins.rst = true) ∧
      (step heldBad = .next (after heldBad) ∧ heldBad.pins.rst = false ∧ heldBad.accepts = false) ∧
      (step atHuntDiscard = .next (after atHuntDiscard) ∧ atHuntDiscard.runs .huntDiscard) ∧
      (step atByteBody = .next (after atByteBody) ∧ atByteBody.accepts = true ∧ ¬atByteBody.runs .huntDiscard ∧
        Reachable atByteBody) :=
  ⟨⟨rfl, by decide⟩, ⟨rfl, by decide⟩, ⟨rfl, by decide⟩, ⟨rfl, by decide, by decide, reachable_stateAfter ..⟩⟩

theorem witness_NoWriteWhileHeld :
    heldBad.st = .done ∧ heldBad.pins.rst = false ∧ step heldBad = .next (after heldBad) ∧
      atAck.st = .done ∧ atAck.pins.rst = false ∧ step atAck = .next (after atAck) :=
  ⟨by decide, by decide, rfl, by decide, by decide, rfl⟩

theorem witness_VerdictNeverBlocks :
    Reachable heldBad ∧ step atByteCk = .next (after atByteCk) ∧ heldBad.out.frameValid = true ∧ heldBad.out.csumOk = false ∧
      heldBad.pins.rst = false := ⟨reachable_stateAfter .., rfl, by decide⟩

theorem witness_LevelsClearedOnlyBy :
    (step atAck = .next (after atAck) ∧ atAck.out.frameValid = true) ∧
      (step stoppedMalformed = .next (after stoppedMalformed) ∧ stoppedMalformed.out.stopped = true ∧
        stoppedMalformed.malformed = true) := ⟨⟨rfl, by decide⟩, rfl, by decide⟩

theorem witness_CodecFlagLatched :
    step atByteSync = .next (after atByteSync) ∧ atByteSync.st = .idle ∧ atByteSel.st ≠ .idle := ⟨rfl, by decide⟩

theorem witness_IgnoredInputs : atByteSel.st ≠ .done ∧ heldBad.st = .done ∧ stoppedClean.st = .stopped := by decide

theorem witness_MalformedIsSticky :
    step atEndMalformed = .next (after atEndMalformed) ∧ Reachable atByteSel ∧ atByteSel.malformed = false ∧
      Reachable stoppedMalformed ∧ stoppedMalformed.malformed = true :=
  ⟨rfl, reachable_stateAfter .., by decide, reachable_stateAfter .., by decide⟩

theorem witness_StoppedUntilReset :
    stoppedClean.st = .stopped ∧ stoppedClean.pins.rst = false ∧ stoppedMalformed.st = .stopped ∧
      stoppedMalformed.pins.rst = true := by decide

/-- A first frame and one after a held frame. -/
def secondSync : State := stateAfter false (sent [0xFF, 0x55, 0x01, 0x00, 0xFE] ++ [.ack]) 0x01FF#13

theorem witness_FramesAreIndependent :
    (atByteSync.runs .byteSync ∧ secondSync.runs .byteSync ∧ atByteSync.pins.inData = secondSync.pins.inData ∧
      atByteSync.pins.codecEn = secondSync.pins.codecEn ∧ step atByteSync = .next (after atByteSync) ∧
      step secondSync = .next (after secondSync)) ∧
      (atAck.runs .ack ∧ step atAck = .next (after atAck)) ∧
      Reachable stoppedMalformed ∧ stoppedMalformed.malformed = true :=
  ⟨⟨by decide, by decide, by decide, by decide, rfl, rfl⟩, ⟨by decide, rfl⟩, reachable_stateAfter .., by decide⟩

theorem witness_ChecksumByteUnique :
    2 ≤ ([0xFF, 0x55] : List Byte).length ∧ checksumOf [0xFF, 0x55, 0x00] = 0x00#8 ∧ Reachable atByteBody ∧
      atByteBody.runs .byteBody := ⟨by decide, by decide, reachable_stateAfter .., by decide⟩

/-- The first and the last bit of the range of the frame of X2. -/
theorem witness_SingleBitFlipChangesVerdict :
    2 < ([0xFF, 0x55, 0x02, 0x00, 0x00, 0xFE] : List Byte).length ∧
      checksumOf [0xFF, 0x55, 0x02, 0x00, 0x00, 0xFE] = 0x00#8 ∧ checksumOf [0xFF, 0x55, 0x02, 0x00, 0x00, 0x7E] = 0x80#8 := by
  decide

/-! ### Witnesses of the whole-frame statements -/

/-- The wire bytes of the identify frame of X1, under either codec level. -/
def identify (k : Bool) : List Byte := ([0xFF, 0x55, 0x02, 0x00, 0x00, 0xFE] : List Byte).map (codecIf k)

theorem test_identify_wire : identify true = [0xCE, 0x64, 0x33, 0x31, 0x31, 0xCF] := by decide

/-- Each byte of `w` is accepted in its cycle, with no pause. -/
def accepting (k : Bool) : List Byte → State → Bool
  | [], _ => true
  | b :: rest, s =>
    s.accepts && !s.pins.rst && !s.pins.srcEnd && (s.st != .idle || s.pins.codecEn == k) && s.pins.inData == b &&
      (match step s with
        | .next t => accepting k rest t
        | .fault _ => false
        | .refused _ => false)

/-- Where `accepting` leaves the FSR. -/
def endOf : List Byte → State → State
  | [], s => s
  | _ :: rest, s => endOf rest (after s)

theorem accepted_of_accepting {k : Bool} {w : List Byte} {s : State} (h : accepting k w s = true) :
    Accepted k s w (endOf w s) := by
  induction w generalizing s with
  | nil => exact .here s
  | cons b rest ih =>
    rw [accepting] at h
    cases hs : step s with
    | next t =>
      simp only [hs, Bool.and_eq_true, Bool.not_eq_true', Bool.or_eq_true, bne_iff_ne, beq_iff_eq] at h
      obtain ⟨⟨⟨⟨⟨ha, hr⟩, he⟩, hc⟩, rfl⟩, ht⟩ := h
      have hn : after s = t := by rw [after, hs]; rfl
      rw [endOf, hn]
      exact .byte hr he ha (fun hi => hc.resolve_left (fun hne => hne hi)) hs (ih ht)
    | fault _ => simp [hs] at h
    | refused _ => simp [hs] at h

/-- The obfuscated identify frame, offered one byte a cycle after reset, with `SYNC_HUNT = h`. -/
def offered (h : Bool) : State := (State.resetOf h).driven (offering true (identify true))

theorem witness_EveryByteDecodedOnce :
    (offered true).st = .idle ∧ identify true = 0xCE#8 :: (identify true).tail ∧ unmasked true 0xCE#8 = 0xFF#8 ∧
      Accepted true (offered true) (identify true) (endOf (identify true) (offered true)) :=
  ⟨rfl, by decide, by decide, accepted_of_accepting (by decide)⟩

/-- The first three bytes of the frame, with `src_end` in the next cycle; and no byte at all. -/
def cut : State := (State.resetOf false).driven (offering true [0xCE, 0x64, 0x33] ++ [{ Pins.low with srcEnd := true }])

theorem witness_AssemblesAsTheReference :
    ((offered false).st = .idle ∧ (offered false).hunt = false ∧
      Accepted true (offered false) (identify true) (endOf (identify true) (offered false)) ∧
      assemble true (identify true) = .frame [0xFF, 0x55, 0x02, 0x00, 0x00, 0xFE] true []) ∧
    (Accepted true cut [0xCE, 0x64, 0x33] (endOf [0xCE, 0x64, 0x33] cut) ∧ cut.st = .idle ∧ cut.hunt = false ∧
      assemble true [0xCE, 0x64, 0x33] = .malformed 3 ∧ (endOf [0xCE, 0x64, 0x33] cut).pins.rst = false ∧
      (endOf [0xCE, 0x64, 0x33] cut).pins.srcEnd = true) ∧
    (Accepted true atEndClean [] atEndClean ∧ atEndClean.st = .idle ∧ atEndClean.hunt = false ∧
      atEndClean.pins.rst = false ∧ atEndClean.pins.srcEnd = true) ∧
    (atAck.st = .done ∧ atAck.pins.rst = false ∧ atAck.pins.frameAck = true ∧ step atAck = .next (after atAck)) :=
  ⟨⟨rfl, rfl, accepted_of_accepting (by decide), by decide⟩, ⟨accepted_of_accepting (by decide), by decide⟩,
    ⟨.here _, by decide⟩, by decide, by decide, by decide, rfl⟩

theorem witness_FrameHeldAfterItsBytes :
    State.reset.st = .idle ∧ State.reset.hunt = false ∧
      assemble true (identify true) = .frame [0xFF, 0x55, 0x02, 0x00, 0x00, 0xFE] true [] := by decide

/-- The shortest frame with a byte after it, a held one, and the longest stream too short for a frame. -/
theorem witness_FramesHaveFiveBytes :
    assemble false [0xFF, 0x55, 0x01, 0x00, 0xFF, 0xFF] = .frame [0xFF, 0x55, 0x01, 0x00, 0xFF] true [0xFF] ∧
      Reachable heldBad ∧ heldBad.out.frameValid = true ∧ ([0xFF, 0x55, 0x01, 0x00] : List Byte).length < 5 :=
  ⟨by decide, reachable_stateAfter .., by decide, by decide⟩

theorem witness_ScriptFramesAreFrames :
    ([] : List Byte).length ≤ 65535 ∧ (List.replicate 65535 0xFF#8).length ≤ 65535 :=
  ⟨Nat.zero_le _, Nat.le_of_eq List.length_replicate⟩

/-- Two instances, each at a byte; the first edge is the first one's, the second the other's. -/
def pair : Platform 2 := #v[atByteSync, atByteSel]
def pairOnce : Platform 2 := #v[after atByteSync, atByteSel]
def pairTwice : Platform 2 := #v[after atByteSync, after atByteSel]

theorem witness_PipelinesAreIsolated :
    pair.stepAt 0 = .next pairOnce ∧ pairOnce.stepAt 1 = .next pairTwice ∧ (1 : Fin 2) ≠ 0 ∧
      (#v[atByteSync, heldBad] : Platform 2)[0] = pair[0] := ⟨rfl, rfl, by decide, rfl⟩

theorem witness_HeldPinsObeyTheSource : State.reset.stim = [] := rfl

theorem witness_WaitsWithoutTimeout :
    State.reset.stim = [] ∧
      State.reset.pins = { Pins.low with codecEn := State.reset.pins.codecEn, raddr := State.reset.pins.raddr } :=
  ⟨rfl, rfl⟩

theorem witness_StorePastBufferFaults : 65541 ≤ pastBuffer.idx.toNat := by decide

end Sys2Proof.Machine.Tests
end

section
/-! PROOFS. The statements of 00_scope.md: one edge runs the decoded instruction (R15, R16), and from the invariant
no write leaves the buffer (R9). -/

namespace Sys2Proof.Machine

/-! ### One edge, by the outcome of the decoded instruction -/

/-- The cycle of a word that decodes to `i` runs `i`'s operation. -/
theorem runs_of_decode {s : State} {i : Instr} (hi : decode s.opWord = .ok i) : s.runs i.op := by
  simp [State.runs, State.operation, hi]

/-- Where the decoded instruction answers a state, the edge answers it with the next cycle's inputs. -/
theorem step_of_exec_next {s t : State} {i : Instr} (hi : decode s.opWord = .ok i) (ht : exec i s = .next t) :
    step s = .next (s.clocked t) := by
  rw [step_of_runs (runs_of_decode hi), ht]

/-- A fault of the decoded instruction is the edge's own. -/
theorem step_of_exec_fault {s : State} {i : Instr} {f : Fault} (hi : decode s.opWord = .ok i)
    (hf : exec i s = .fault f) : step s = .fault f := by
  rw [step_of_runs (runs_of_decode hi), hf]

/-- A refusal of the decoded instruction is the edge's own. -/
theorem step_of_exec_refused {s : State} {i : Instr} {r : Refusal} (hi : decode s.opWord = .ok i)
    (hr : exec i s = .refused r) : step s = .refused r := by
  rw [step_of_runs (runs_of_decode hi), hr]

/-- The next cycle's pins are the first of the given levels, or the held ones where none are given. -/
theorem nextPins_eq_headD (s : State) : s.nextPins = s.stim.headD (s.pins.hold s.accepts) := by
  cases hs : s.stim with
  | nil => exact nextPins_nil hs
  | cons p rest => exact nextPins_cons hs

/-- `clocked` writes the two input fields and no other. -/
theorem clocked_eq (s t : State) :
    s.clocked t = { t with pins := s.stim.headD (s.pins.hold s.accepts), stim := s.stim.tail } := by
  rw [State.clocked, nextPins_eq_headD]

/-- Settles O24: a refusal cannot occur, but is passed on like a fault. -/
theorem stepRunsDecodedInstruction : Obligations.StepRunsDecodedInstruction := by
  intro s i hi
  refine ⟨fun t ht => ?_, fun _ hf => step_of_exec_fault hi hf, fun _ hr => step_of_exec_refused hi hr⟩
  rw [step_of_exec_next hi ht, clocked_eq]

/-! ### The selected row and the state field of the decode word -/

/-- The selected operation's row is in the map and matches the word. -/
theorem exists_row_of_selectOp (w : OpWord) : ∃ row ∈ opMap, row.op = selectOp w ∧ row.hits w = true := by
  unfold selectOp
  cases hf : opMap.find? (fun row => row.hits w) with
  | some row => exact ⟨row, List.mem_of_find?_eq_some hf, rfl, List.find?_some (p := (OpRow.hits · w)) hf⟩
  | none =>
    have hnop : (⟨.nop, 0x0000#16, 0x0000#16⟩ : OpRow).hits w = true := by simp [OpRow.hits]
    exact absurd hnop (List.find?_eq_none.1 hf _ (by decide))

/-- A row that looks at the whole field `S` matches only words with its own `S`. -/
theorem fieldS_eq_of_hits {row : OpRow} {w : OpWord} (hmask : fieldS row.mask = BitVec.allOnes 4)
    (hit : row.hits w = true) : fieldS w = fieldS row.pattern := by
  have hpat : w &&& row.mask = row.pattern := by simpa [OpRow.hits] using hit
  calc fieldS w = fieldS w &&& fieldS row.mask := by rw [hmask, BitVec.and_allOnes]
    _ = fieldS (w &&& row.mask) := BitVec.extractLsb'_and.symm
    _ = fieldS row.pattern := by rw [hpat]

/-- Field `S` of a cycle's decode word is the encoding of `st` (R61). -/
@[simp] theorem fieldS_opWord (s : State) : fieldS s.opWord = s.st.code := fieldS_packEW ..

/-- A body byte or the checksum byte is taken in `BODY` only (rows 12 and 13 of R62). -/
theorem st_eq_body_of_selectOp {s : State} (h : selectOp s.opWord = .byteBody ∨ selectOp s.opWord = .byteCk) :
    s.st = .body := by
  have hrows : ∀ row ∈ opMap, row.op = .byteBody ∨ row.op = .byteCk →
      fieldS row.mask = BitVec.allOnes 4 ∧ fieldS row.pattern = St.body.code := by decide
  obtain ⟨row, hrow, hop, hit⟩ := exists_row_of_selectOp s.opWord
  obtain ⟨hmask, hpat⟩ := hrows row hrow (by rwa [hop])
  apply St.code_injective
  rw [← fieldS_opWord, fieldS_eq_of_hits hmask hit, hpat]

/-! ### No write leaves the buffer -/

/-- R9: the longest frame that the length fields can declare fits the buffer. -/
theorem declaredEnd_le_fbDepth (s : State) : s.declaredEnd ≤ Config.fbDepth := by
  have hlen : s.plen.toNat < 2 ^ 16 := s.plen.isLt
  have hhead : headerSize s.ext ≤ 5 := by cases s.ext <;> decide
  unfold State.declaredEnd Config.fbDepth
  omega

/-- In `BODY` a byte is still to come, so `idx` is short of the declared end. -/
theorem State.Framed.idx_lt_fbDepth {s : State} (hf : s.Framed) (hst : s.st = .body) :
    s.idx.toNat < Config.fbDepth := by
  obtain ⟨hrem, -, hend⟩ := hf.body hst
  have hfit := declaredEnd_le_fbDepth s
  omega

/-- A write at an index that exists is answered. -/
theorem exists_memWrite_next {s t : State} {i : Nat} {d : Byte} (hi : i < Config.fbDepth) :
    ∃ u, memWrite s i d t = .next u := ⟨_, memWrite_of_lt hi⟩

/-- Only the two operations that write at `idx` can stop: the header bytes are written at fixed indices, and the other
operations write no byte. -/
theorem exec_next_of_idx_lt {i : Instr} {s : State}
    (h : i.op = .byteBody ∨ i.op = .byteCk → s.idx.toNat < Config.fbDepth) : ∃ t, exec i s = .next t := by
  cases i
  case byteBody => exact exists_memWrite_next (h (.inl rfl))
  case byteCk => exact exists_memWrite_next (h (.inr rfl))
  case byteSync => exact exists_memWrite_next (i := 0) (by decide)
  case byteSel => exact exists_memWrite_next (i := 1) (by decide)
  case byteLenShort | byteLenEsc => exact exists_memWrite_next (i := 2) (by decide)
  case byteExth => exact exists_memWrite_next (i := 3) (by decide)
  case byteExtl => exact exists_memWrite_next (i := 4) (by decide)
  case reset | endClean | endMalformed | ack | huntDiscard | nop => exact ⟨_, rfl⟩

/-- Settles O28: only a byte of `BODY` is written at `idx`, and there R81 keeps `idx` inside the buffer. -/
theorem stepAnswersFromInvariant : Obligations.StepAnswersFromInvariant := by
  intro s hs
  have hidx : ((selectOp s.opWord).readOperands s.opWord).op = .byteBody ∨
      ((selectOp s.opWord).readOperands s.opWord).op = .byteCk → s.idx.toNat < Config.fbDepth := by
    rw [op_readOperands]
    exact fun hop => hs.framed.idx_lt_fbDepth (st_eq_body_of_selectOp hop)
  obtain ⟨t, ht⟩ := exec_next_of_idx_lt hidx
  exact ⟨s.clocked t, step_of_exec_next (decode_opWord s) ht⟩

end Sys2Proof.Machine
end

section
/-! PROOFS. The statements of 10_state.md: reset (R33), the status view (R39), the acceptance of a byte (R34), the
delivery outputs (R35 to R38), the exception registers (R28, R29) and the independence of frames (R32). Before them the
cycles that select each operation (R62, R101) and the invariants they need. -/

namespace Sys2Proof

/-- The fields of R61 and the reserved bits determine the word. -/
theorem opWord_eq_iff_fields {w w' : OpWord} :
    w = w' ↔ w.extractLsb' 12 4 = w'.extractLsb' 12 4 ∧ fieldH w = fieldH w' ∧ fieldM w = fieldM w' ∧
      fieldZ w = fieldZ w' ∧ fieldT w = fieldT w' ∧ fieldS w = fieldS w' ∧ fieldA w = fieldA w' ∧
      fieldV w = fieldV w' ∧ fieldE w = fieldE w' ∧ fieldR w = fieldR w' := by
  refine ⟨by rintro rfl; simp, ?_⟩
  rintro ⟨hz, hH, hM, hZ, hT, hS, hA, hV, hE, hR⟩
  have reserved (j : Nat) (hj : j < 4) : w.getLsbD (12 + j) = w'.getLsbD (12 + j) := by
    simpa [BitVec.getLsbD_extractLsb', hj] using congrArg (BitVec.getLsbD · j) hz
  have state (j : Nat) (hj : j < 4) : w.getLsbD (4 + j) = w'.getLsbD (4 + j) := by
    simpa [fieldS, BitVec.getLsbD_extractLsb', hj] using congrArg (BitVec.getLsbD · j) hS
  refine BitVec.eq_of_getLsbD_eq fun i hi => ?_
  interval_cases i
  exacts [hR, hE, hV, hA, state 0 (by decide), state 1 (by decide), state 2 (by decide), state 3 (by decide), hT, hZ,
    hM, hH, reserved 0 (by decide), reserved 1 (by decide), reserved 2 (by decide), reserved 3 (by decide)]

section masked
variable (w w' : OpWord)

@[simp] theorem fieldH_and : fieldH (w &&& w') = (fieldH w && fieldH w') := BitVec.getLsbD_and
@[simp] theorem fieldM_and : fieldM (w &&& w') = (fieldM w && fieldM w') := BitVec.getLsbD_and
@[simp] theorem fieldZ_and : fieldZ (w &&& w') = (fieldZ w && fieldZ w') := BitVec.getLsbD_and
@[simp] theorem fieldT_and : fieldT (w &&& w') = (fieldT w && fieldT w') := BitVec.getLsbD_and
@[simp] theorem fieldS_and : fieldS (w &&& w') = fieldS w &&& fieldS w' := BitVec.extractLsb'_and
@[simp] theorem fieldA_and : fieldA (w &&& w') = (fieldA w && fieldA w') := BitVec.getLsbD_and
@[simp] theorem fieldV_and : fieldV (w &&& w') = (fieldV w && fieldV w') := BitVec.getLsbD_and
@[simp] theorem fieldE_and : fieldE (w &&& w') = (fieldE w && fieldE w') := BitVec.getLsbD_and
@[simp] theorem fieldR_and : fieldR (w &&& w') = (fieldR w && fieldR w') := BitVec.getLsbD_and
end masked

/-- A row of R62 matches a packed word exactly where it matches every field. -/
theorem hits_packEW (op : Op) (mask pattern : OpWord) (h m z t : Bool) (s : BitVec 4) (a v e r : Bool) :
    (⟨op, mask, pattern⟩ : OpRow).hits (packEW h m z t s a v e r) =
      decide (0#4 = pattern.extractLsb' 12 4 ∧ (h && fieldH mask) = fieldH pattern ∧
        (m && fieldM mask) = fieldM pattern ∧ (z && fieldZ mask) = fieldZ pattern ∧
        (t && fieldT mask) = fieldT pattern ∧ s &&& fieldS mask = fieldS pattern ∧
        (a && fieldA mask) = fieldA pattern ∧ (v && fieldV mask) = fieldV pattern ∧
        (e && fieldE mask) = fieldE pattern ∧ (r && fieldR mask) = fieldR pattern) := by
  have reserved : (packEW h m z t s a v e r &&& mask).extractLsb' 12 4 = 0#4 := by
    rw [BitVec.extractLsb'_and, reserved_packEW, BitVec.zero_and]
  rw [OpRow.hits, Bool.eq_iff_iff, beq_iff_eq, opWord_eq_iff_fields, reserved, decide_eq_true_iff]
  simp only [fieldH_and, fieldM_and, fieldZ_and, fieldT_and, fieldS_and, fieldA_and, fieldV_and, fieldE_and,
    fieldR_and, fieldH_packEW, fieldM_packEW, fieldZ_packEW, fieldT_packEW, fieldS_packEW, fieldA_packEW,
    fieldV_packEW, fieldE_packEW, fieldR_packEW]

/-- R62's priority order as a chain: the first row that matches, else `NOP`. -/
theorem selectOp_eq_foldr (w : OpWord) :
    selectOp w = opMap.foldr (fun row later => if row.hits w then row.op else later) .nop := by
  unfold selectOp
  generalize opMap = rows
  induction rows with
  | nil => rfl
  | cons row rest ih =>
    rw [List.foldr_cons, ← ih, List.find?_cons]
    cases row.hits w <;> rfl

/-- The map of R62 read field by field. -/
theorem selectOp_packEW (h m z t : Bool) (s : BitVec 4) (a v e r : Bool) :
    selectOp (packEW h m z t s a v e r) =
      if r then .reset
      else if e ∧ s = 0b0000#4 then .endClean
      else if e ∧ s.getLsbD 3 then .endMalformed
      else if a ∧ s = 0b0010#4 then .ack
      else if v ∧ ¬e then
        if s = 0b0000#4 then if h ∧ ¬m then .huntDiscard else .byteSync
        else if s = 0b1000#4 then .byteSel
        else if s = 0b1001#4 then if z then .byteLenEsc else .byteLenShort
        else if s = 0b1010#4 then .byteExth
        else if s = 0b1011#4 then .byteExtl
        else if s = 0b1100#4 then if t then .byteCk else .byteBody
        else .nop
      else .nop := by
  have whole : s &&& 0b1111#4 = s := BitVec.and_allOnes
  have bit3 : s &&& 0b1000#4 = 0b1000#4 ↔ s.getLsbD 3 = true := by revert s; decide
  rw [selectOp_eq_foldr]
  simp only [opMap, List.foldr_cons, hits_packEW, BitVec.reduceExtractLsb', fieldH, Nat.reduceLT,
    BitVec.getLsbD_eq_getElem, BitVec.getElem_one, OfNat.ofNat_ne_zero, decide_false, Bool.and_false, fieldM, fieldZ,
    fieldT, fieldS, BitVec.and_zero, fieldA, fieldV, fieldE, Nat.one_lt_ofNat, one_ne_zero, fieldR, Nat.ofNat_pos,
    decide_true, Bool.and_true, true_and, Bool.decide_eq_true, BitVec.reduceGetElem, whole, Bool.decide_and,
    Bool.decide_eq_false, Bool.and_eq_true, decide_eq_true_eq, Bool.not_eq_eq_eq_not, Bool.not_true, bit3,
    Nat.lt_add_one, BitVec.extractLsb'_zero, BitVec.getElem_zero, and_self, ↓reduceIte, Bool.not_eq_true]
  cases r
  case true => simp
  case false =>
    cases e
    case true => simp [and_comm]
    case false =>
      cases v
      case false => simp [and_comm]
      case true =>
        by_cases hidle : s = 0b0000#4
        · subst hidle; cases h <;> cases m <;> simp
        · cases z <;> cases t <;> simp [hidle, and_comm]

end Sys2Proof

namespace Sys2Proof.Machine

@[simp] theorem St.receiving_idle : St.receiving .idle = true := by decide
@[simp] theorem St.receiving_stopped : St.receiving .stopped = false := by decide
@[simp] theorem St.receiving_done : St.receiving .done = false := by decide
@[simp] theorem St.receiving_sel : St.receiving .sel = true := by decide
@[simp] theorem St.receiving_len : St.receiving .len = true := by decide
@[simp] theorem St.receiving_exth : St.receiving .exth = true := by decide
@[simp] theorem St.receiving_extl : St.receiving .extl = true := by decide
@[simp] theorem St.receiving_body : St.receiving .body = true := by decide

/-- R101: the operation that the map selects from the word of a cycle is the one of the priority order. -/
theorem selectOp_opWord (s : State) : selectOp s.opWord = s.priorityOp := by
  have hdecoded : s.decodedByte = if s.st = .idle then s.boundaryByte else s.frameByte := by
    split_ifs with hst
    exacts [decodedByte_of_idle hst, decodedByte_of_ne_idle hst]
  rw [State.opWord, selectOp_packEW, hdecoded]
  unfold State.priorityOp
  cases hst : s.st <;> cases s.pins.srcEnd <;> simp [St.code, State.byteOp, hst]

/-- The operation of a cycle, by the priority order. -/
theorem runs_iff_priorityOp {s : State} {op : Op} : s.runs op ↔ s.priorityOp = op := by
  rw [State.runs, operation_eq, selectOp_opWord, Option.some_inj]

/-- The cycles that R62 and R101 give to each operation, by the state and the input levels. -/
def State.Selects (s : State) : Op → Prop
  | .reset => s.pins.rst = true
  | .endClean => s.pins.rst = false ∧ s.pins.srcEnd = true ∧ s.st = .idle
  | .endMalformed => s.pins.rst = false ∧ s.pins.srcEnd = true ∧ s.st.midFrame = true
  | .ack => s.pins.rst = false ∧ s.pins.frameAck = true ∧ s.st = .done
  | .huntDiscard => s.accepts = true ∧ s.st = .idle ∧ s.hunt = true ∧ isSync s.boundaryByte = false
  | .byteSync => s.accepts = true ∧ s.st = .idle ∧ (s.hunt = true → isSync s.boundaryByte = true)
  | .byteSel => s.accepts = true ∧ s.st = .sel
  | .byteLenShort => s.accepts = true ∧ s.st = .len ∧ isEscape s.frameByte = false
  | .byteLenEsc => s.accepts = true ∧ s.st = .len ∧ isEscape s.frameByte = true
  | .byteExth => s.accepts = true ∧ s.st = .exth
  | .byteExtl => s.accepts = true ∧ s.st = .extl
  | .byteBody => s.accepts = true ∧ s.st = .body ∧ s.lastByte = false
  | .byteCk => s.accepts = true ∧ s.st = .body ∧ s.lastByte = true
  | .nop => s.pins.rst = false ∧ (s.st = .stopped ∨ s.st = .done ∧ s.pins.frameAck = false ∨
      s.st.receiving = true ∧ s.pins.srcEnd = false ∧ s.pins.inValid = false)

/-- R34 with the pins and the state apart. -/
theorem accepts_iff {s : State} : s.accepts = true ↔
    s.pins.inValid = true ∧ s.st.receiving = true ∧ s.pins.rst = false ∧ s.pins.srcEnd = false := by
  simp [State.accepts, State.inReady, and_assoc]

/-- An accepted byte runs the byte operation of the field it fills. -/
theorem priorityOp_of_accepts {s : State} (h : s.accepts = true) : s.priorityOp = s.byteOp := by
  obtain ⟨hvalid, hrec, hrst, hend⟩ := accepts_iff.1 h
  have hdone : s.st ≠ .done := ((St.receiving_iff _).1 hrec).2
  simp [State.priorityOp, hvalid, hrec, hrst, hend, hdone]

/-- The byte operation of an accepted byte is selected. -/
theorem selects_byteOp {s : State} (h : s.accepts = true) : s.Selects s.byteOp := by
  have hrec := (accepts_iff.1 h).2.1
  unfold State.byteOp
  cases hst : s.st
  case stopped | done => simp [hst] at hrec
  case idle =>
    dsimp only
    split_ifs with hdrop
    · simpa [State.Selects, h, hst] using hdrop
    · simpa [State.Selects, h, hst] using hdrop
  case len =>
    dsimp only
    split_ifs with hesc
    · exact ⟨h, hst, hesc⟩
    · exact ⟨h, hst, by simpa using hesc⟩
  case body =>
    dsimp only
    split_ifs with hlast
    · exact ⟨h, hst, hlast⟩
    · exact ⟨h, hst, by simpa using hlast⟩
  case sel | exth | extl => exact ⟨h, hst⟩

/-- The priority order gives each operation only its own cycles. -/
theorem selects_priorityOp (s : State) : s.Selects s.priorityOp := by
  by_cases ha : s.accepts = true
  · rw [priorityOp_of_accepts ha]
    exact selects_byteOp ha
  · rw [accepts_iff] at ha
    unfold State.priorityOp
    split_ifs with hrst hidle hmid hack hbyte
    · exact hrst
    · simpa [State.Selects, hrst] using hidle
    · simpa [State.Selects, hrst] using hmid
    · simpa [State.Selects, hrst] using hack
    · have hrec : s.st.receiving = true := by simp_all
      have hend : s.pins.srcEnd = false := by
        simp only [Bool.and_eq_true, beq_iff_eq, not_and] at hidle hmid
        by_contra hend
        simp_all [St.receiving]
      simp_all
    · cases hst : s.st <;> simp_all [State.Selects]

/-- Each operation has its cycles to itself. -/
theorem priorityOp_of_selects {s : State} {op : Op} (h : s.Selects op) : s.priorityOp = op := by
  cases op
  case reset | endClean | ack => simp_all [State.Selects, State.priorityOp]
  case endMalformed =>
    obtain ⟨hrst, hend, hmid⟩ := h
    have hidle : s.st ≠ .idle := fun hst => by simp [hst] at hmid
    simp [State.priorityOp, hrst, hend, hmid, hidle]
  case nop =>
    obtain ⟨hrst, hst | ⟨hst, hack⟩ | ⟨hrec, hend, hvalid⟩⟩ := h
    · simp [State.priorityOp, hrst, hst]
    · simp [State.priorityOp, hrst, hst, hack]
    · have hdone : s.st ≠ .done := ((St.receiving_iff _).1 hrec).2
      simp [State.priorityOp, hrst, hend, hvalid, hdone]
  case huntDiscard | byteSync | byteSel | byteLenShort | byteLenEsc | byteExth | byteExtl | byteBody | byteCk =>
    rw [priorityOp_of_accepts h.1]
    simp_all [State.Selects, State.byteOp]

/-- The cycles of each operation, exactly. -/
theorem runs_iff_selects {s : State} {op : Op} : s.runs op ↔ s.Selects op :=
  ⟨fun h => runs_iff_priorityOp.1 h ▸ selects_priorityOp s,
    fun h => runs_iff_priorityOp.2 (priorityOp_of_selects h)⟩

/-- A cycle runs one operation. -/
theorem runs_unique {s : State} {op op' : Op} (h : s.runs op) (h' : s.runs op') : op = op' :=
  Option.some.inj (h.symm.trans h')

/-! ### What a step that answers a next state has done -/

/-- The step is the effect of one instruction of the operation that runs, then the next cycle's pins. -/
theorem step_runs {s t : State} (h : step s = .next t) :
    ∃ i u, s.runs i.op ∧ exec i s = .next u ∧ t = s.clocked u := by
  obtain ⟨u, hu, ht⟩ := step_next h
  exact ⟨_, u, runs_of_decode (decode_opWord s), hu, ht⟩

/-- `step_runs` where the operation that runs is known: any instruction of it will do. -/
theorem step_next_of_runs {s t : State} {i : Instr} (hi : s.runs i.op) (h : step s = .next t) :
    ∃ u, exec i s = .next u ∧ t = s.clocked u := by
  obtain ⟨j, u, hj, hu, ht⟩ := step_runs h
  exact ⟨u, exec_eq_of_op_eq (runs_unique hi hj) s ▸ hu, ht⟩

/-! ### What each byte operation answers: its registers and one buffer byte -/

section answers
variable {s u : State}

theorem execByteSync_next (h : execByteSync s = .next u) :
    u = { s with
      idx := 1#17, cx := s.pins.codecEn, syncOk := isSync s.boundaryByte, acc := 0x00#8, ext := false,
      plen := 0x0000#16, rem := 0#17, st := .sel, fb := s.fb.write 0 s.boundaryByte } := (memWrite_next h).2

theorem execByteSel_next (h : execByteSel s = .next u) :
    u = { s with idx := 2#17, st := .len, fb := s.fb.write 1 s.frameByte } := (memWrite_next h).2

theorem execByteLenShort_next (h : execByteLenShort s = .next u) :
    u = { s with
      idx := 3#17, acc := accUpdate s.acc s.frameByte, plen := shortLength s.frameByte, ext := false,
      rem := remainingAfter (shortLength s.frameByte), st := .body, fb := s.fb.write 2 s.frameByte } :=
  (memWrite_next h).2

theorem execByteLenEsc_next (h : execByteLenEsc s = .next u) :
    u = { s with
      idx := 3#17, acc := accUpdate s.acc 0x00#8, ext := true, st := .exth, fb := s.fb.write 2 0x00#8 } :=
  (memWrite_next h).2

theorem execByteExth_next (h : execByteExth s = .next u) :
    u = { s with
      idx := 4#17, acc := accUpdate s.acc s.frameByte, plen := withHighByte s.plen s.frameByte, st := .extl,
      fb := s.fb.write 3 s.frameByte } := (memWrite_next h).2

theorem execByteExtl_next (h : execByteExtl s = .next u) :
    u = { s with
      idx := 5#17, acc := accUpdate s.acc s.frameByte, plen := withLowByte s.plen s.frameByte,
      rem := remainingAfter (withLowByte s.plen s.frameByte), st := .body, fb := s.fb.write 4 s.frameByte } :=
  (memWrite_next h).2

theorem execByteBody_next (h : execByteBody s = .next u) :
    u = { s with
      idx := s.idx + 1#17, acc := accUpdate s.acc s.frameByte, rem := s.rem - 1#17,
      fb := s.fb.write s.idx.toNat s.frameByte } := (memWrite_next h).2

theorem execByteCk_next (h : execByteCk s = .next u) :
    u = { s with
      idx := s.idx + 1#17, acc := accUpdate s.acc s.frameByte, rem := 0#17, st := .done,
      fb := s.fb.write s.idx.toNat s.frameByte } := (memWrite_next h).2
end answers

/-- A property of states that holds at reset and is kept by every step holds of every reachable state. -/
theorem Reachable.of_invariant {P : State → Prop}
    (hstart : ∀ h p q, P { State.resetOf h with pins := p, stim := q })
    (hstep : ∀ s t, P s → step s = .next t → P t) {s : State} (hs : Reachable s) : P s := by
  induction hs with
  | start h p q => exact hstart h p q
  | edge _ ht ih => exact hstep _ _ ih ht

/-- Settles O26: right after reset no frame is under way and no byte is counted. -/
theorem invariantHoldsAtReset : Obligations.InvariantHoldsAtReset := fun _ _ _ =>
  { memory := Memory.wf_nil
    framed := by constructor <;> simp [State.resetOf]
    fresh := by constructor <;> simp [State.resetOf]
    summed := ⟨by simp [State.resetOf], rfl⟩
    held := by constructor <;> simp [State.resetOf]
    trapped := by constructor <;> simp [State.resetOf] }

/-! ### The exception registers (R28, R29) -/

/-- Only `RESET` and `END_MALFORMED` write the exception registers. -/
theorem exec_keeps_exception {i : Instr} {s u : State} (hu : exec i s = .next u) (hreset : i.op ≠ .reset)
    (hraise : i.op ≠ .endMalformed) : u.malformed = s.malformed ∧ u.tst = s.tst := by
  cases i
  case reset => exact absurd rfl hreset
  case endMalformed => exact absurd rfl hraise
  case endClean | ack | huntDiscard | nop => cases hu; exact ⟨rfl, rfl⟩
  case byteSync => cases execByteSync_next hu; exact ⟨rfl, rfl⟩
  case byteSel => cases execByteSel_next hu; exact ⟨rfl, rfl⟩
  case byteLenShort => cases execByteLenShort_next hu; exact ⟨rfl, rfl⟩
  case byteLenEsc => cases execByteLenEsc_next hu; exact ⟨rfl, rfl⟩
  case byteExth => cases execByteExth_next hu; exact ⟨rfl, rfl⟩
  case byteExtl => cases execByteExtl_next hu; exact ⟨rfl, rfl⟩
  case byteBody => cases execByteBody_next hu; exact ⟨rfl, rfl⟩
  case byteCk => cases execByteCk_next hu; exact ⟨rfl, rfl⟩

/-- In `STOPPED` only `RESET` and `NOP` run (R103). -/
theorem op_of_stopped {s : State} {op : Op} (hst : s.st = .stopped) (h : s.runs op) : op = .reset ∨ op = .nop := by
  rw [runs_iff_priorityOp] at h
  subst h
  simp only [State.priorityOp, hst]
  by_cases hrst : s.pins.rst = true <;> simp [hrst]

theorem step_of_runs_reset {s t : State} (hr : s.runs .reset) (h : step s = .next t) :
    t = s.clocked (resetRegisters s) := by
  obtain ⟨_, ⟨⟩, ht⟩ := step_next_of_runs (i := .reset false false false false 0 false false false) hr h
  exact ht

theorem step_of_runs_endMalformed {s t : State} (hr : s.runs .endMalformed) (h : step s = .next t) :
    t = s.clocked (raiseMalformed s) := by
  obtain ⟨_, ⟨⟩, ht⟩ := step_next_of_runs (i := .endMalformed false false false false 0 false false) hr h
  exact ht

theorem step_of_runs_nop {s t : State} (hr : s.runs .nop) (h : step s = .next t) : t = s.clocked s := by
  obtain ⟨_, ⟨⟩, ht⟩ := step_next_of_runs (i := .nop false false false false 0 false false false false) hr h
  exact ht

/-- A step of any other operation keeps the exception registers. -/
theorem step_keeps_exception {s t : State} (h : step s = .next t) (hreset : ¬s.runs .reset)
    (hraise : ¬s.runs .endMalformed) : t.malformed = s.malformed ∧ t.tst = s.tst := by
  obtain ⟨i, u, hi, hu, rfl⟩ := step_runs h
  have hkeep := exec_keeps_exception hu (fun hop => hreset (hop ▸ hi)) (fun hop => hraise (hop ▸ hi))
  exact hkeep

/-- Every step keeps the exception registers' invariant. -/
theorem State.Trapped.of_step {s t : State} (hs : s.Trapped) (h : step s = .next t) : t.Trapped := by
  by_cases hreset : s.runs .reset
  · obtain rfl := step_of_runs_reset hreset h
    exact ⟨nofun, fun _ => rfl⟩
  by_cases hraise : s.runs .endMalformed
  · obtain ⟨-, -, hmid⟩ := runs_iff_selects.1 hraise
    obtain rfl := step_of_runs_endMalformed hraise h
    exact ⟨fun _ => ⟨rfl, hmid⟩, nofun⟩
  obtain ⟨hm, ht⟩ := step_keeps_exception h hreset hraise
  refine ⟨fun hmal => ?_, fun hmal => ht.trans (hs.clear (hm ▸ hmal))⟩
  obtain ⟨hst, hmid⟩ := hs.stopped (hm ▸ hmal)
  obtain ⟨i, u, hi, -, -⟩ := step_runs h
  have hnop : s.runs .nop := by
    rcases op_of_stopped hst hi with hop | hop
    · exact absurd (hop ▸ hi) hreset
    · exact hop ▸ hi
  obtain rfl := step_of_runs_nop hnop h
  exact ⟨hst, hmid⟩

theorem Reachable.trapped {s : State} (hs : Reachable s) : s.Trapped :=
  hs.of_invariant (P := State.Trapped) (fun h p q => (invariantHoldsAtReset h p q).trapped)
    (fun _ _ hs ht => hs.of_step ht)

/-! ### The frame registers (R81), the fresh header registers and the bytes written so far -/

/-- The bytes that `idx` counts have been written. -/
def State.Written (s : State) : Prop := ∀ i < s.idx.toNat, (s.fb.read i).isSome = true

/-- Outside a frame R81 bounds `idx` alone. -/
theorem State.Framed.of_idle_or_stopped {s : State} (hst : s.st = .idle ∨ s.st = .stopped)
    (hidx : s.idx.toNat ≤ 65541) : s.Framed := by
  rcases hst with hst | hst <;> constructor <;> simp [hst, hidx]

theorem State.HeaderFresh.of_idle_or_stopped {s : State} (hst : s.st = .idle ∨ s.st = .stopped) : s.HeaderFresh := by
  rcases hst with hst | hst <;> constructor <;> simp [hst]

/-- In `BODY` the count `idx` goes up without a wrap. -/
theorem State.Framed.idx_succ_toNat {s : State} (hf : s.Framed) (hst : s.st = .body) :
    (s.idx + 1#17).toNat = s.idx.toNat + 1 := by
  have hidx := hf.idx_lt_fbDepth hst
  unfold Config.fbDepth at hidx
  bv_omega

/-- An index above 0 goes down without a wrap. -/
theorem index_pred_toNat {r : Index} (h : 1 ≤ r.toNat) : (r - 1#17).toNat = r.toNat - 1 := by bv_omega

theorem lastByte_iff {s : State} : s.lastByte = true ↔ s.rem.toNat = 1 := by
  rw [State.lastByte, beq_iff_eq, ← BitVec.toNat_inj]; rfl

/-- Every operation keeps R81 in its own cycles. -/
theorem State.Framed.of_exec {i : Instr} {s u : State} (hf : s.Framed) (hh : s.HeaderFresh) (hi : s.Selects i.op)
    (hu : exec i s = .next u) : u.Framed := by
  cases i
  case reset => cases hu; exact .of_idle_or_stopped (.inl rfl) (by simp)
  case endClean | endMalformed => cases hu; exact .of_idle_or_stopped (.inr rfl) hf.bound
  case ack => cases hu; exact .of_idle_or_stopped (.inl rfl) hf.bound
  case huntDiscard | nop => cases hu; exact hf
  case byteSync => cases execByteSync_next hu; constructor <;> simp
  case byteSel => cases execByteSel_next hu; constructor <;> simp
  case byteLenShort => cases execByteLenShort_next hu; constructor <;> simp [State.declaredEnd, headerSize]; omega
  case byteLenEsc =>
    obtain ⟨-, hst, -⟩ := hi
    have hplen := hh.len hst
    cases execByteLenEsc_next hu
    constructor <;> simp [hplen]
  case byteExth =>
    obtain ⟨-, hst⟩ := hi
    have hext := (hf.exth hst).2.1
    cases execByteExth_next hu; constructor <;> simp [hext]
  case byteExtl =>
    obtain ⟨-, hst⟩ := hi
    have hext := (hf.extl hst).2
    cases execByteExtl_next hu; constructor <;> simp [State.declaredEnd, headerSize, hext]; omega
  case byteBody =>
    obtain ⟨-, hst, hlast⟩ := hi
    obtain ⟨hrem, hle, hend⟩ := hf.body hst
    have hidx := hf.idx_succ_toNat hst
    have hfit := declaredEnd_le_fbDepth s
    have hdec := index_pred_toNat hrem
    have hne : s.rem.toNat ≠ 1 := by simpa [hlast] using lastByte_iff (s := s)
    cases execByteBody_next hu
    unfold State.declaredEnd Config.fbDepth at *
    constructor <;> simp [hst, State.declaredEnd] <;> omega
  case byteCk =>
    obtain ⟨-, hst, hlast⟩ := hi
    obtain ⟨hrem, hle, hend⟩ := hf.body hst
    have hidx := hf.idx_succ_toNat hst
    have hfit := declaredEnd_le_fbDepth s
    have hone := lastByte_iff.1 hlast
    cases execByteCk_next hu
    unfold State.declaredEnd Config.fbDepth at *
    constructor <;> simp [State.declaredEnd] <;> omega

/-- Every operation keeps the fresh header registers fresh until their bytes come. -/
theorem State.HeaderFresh.of_exec {i : Instr} {s u : State} (hf : s.Framed) (hh : s.HeaderFresh)
    (hi : s.Selects i.op) (hu : exec i s = .next u) : u.HeaderFresh := by
  cases i
  case reset => cases hu; exact .of_idle_or_stopped (.inl rfl)
  case endClean | endMalformed => cases hu; exact .of_idle_or_stopped (.inr rfl)
  case ack => cases hu; exact .of_idle_or_stopped (.inl rfl)
  case huntDiscard | nop => cases hu; exact hh
  case byteSync => cases execByteSync_next hu; constructor <;> simp
  case byteSel =>
    obtain ⟨-, hst⟩ := hi
    have hplen := (hh.sel hst).1
    cases execByteSel_next hu; constructor <;> simp [hplen]
  case byteLenShort => cases execByteLenShort_next hu; constructor <;> simp
  case byteLenEsc => cases execByteLenEsc_next hu; constructor <;> simp
  case byteExth =>
    obtain ⟨-, hst⟩ := hi
    have hplen : s.plen = 0#16 := BitVec.eq_of_toNat_eq (hf.exth hst).2.2
    cases execByteExth_next hu; constructor <;> simp [hplen]
  case byteExtl => cases execByteExtl_next hu; constructor <;> simp
  case byteBody =>
    obtain ⟨-, hst, -⟩ := hi
    cases execByteBody_next hu; constructor <;> simp [hst]
  case byteCk => cases execByteCk_next hu; constructor <;> simp

/-- A write at the first index not counted extends the written bytes by one. -/
theorem Memory.isSome_read_write_succ {m : Memory} {n : Nat} {d : Byte} (h : ∀ i < n, (m.read i).isSome = true) :
    ∀ i < n + 1, ((m.write n d).read i).isSome = true := by
  intro i hi
  rw [Memory.read_write]
  split_ifs with hin
  · rfl
  · exact h i (by omega)

/-- Every operation keeps the bytes that `idx` counts written: each byte goes to the first index not counted. -/
theorem State.Written.of_exec {i : Instr} {s u : State} (hw : s.Written) (hf : s.Framed) (hi : s.Selects i.op)
    (hu : exec i s = .next u) : u.Written := by
  unfold State.Written at *
  cases i
  case reset => cases hu; simp
  case endClean | endMalformed | ack | huntDiscard | nop => cases hu; exact hw
  case byteSync =>
    cases execByteSync_next hu
    exact Memory.isSome_read_write_succ (n := 0) nofun
  case byteSel =>
    rw [hf.sel hi.2] at hw
    cases execByteSel_next hu
    exact Memory.isSome_read_write_succ hw
  case byteLenShort =>
    rw [hf.len hi.2.1] at hw
    cases execByteLenShort_next hu
    exact Memory.isSome_read_write_succ hw
  case byteLenEsc =>
    rw [hf.len hi.2.1] at hw
    cases execByteLenEsc_next hu
    exact Memory.isSome_read_write_succ hw
  case byteExth =>
    rw [(hf.exth hi.2).1] at hw
    cases execByteExth_next hu
    exact Memory.isSome_read_write_succ hw
  case byteExtl =>
    rw [(hf.extl hi.2).1] at hw
    cases execByteExtl_next hu
    exact Memory.isSome_read_write_succ hw
  case byteBody =>
    have hidx := hf.idx_succ_toNat hi.2.1
    cases execByteBody_next hu
    simpa only [hidx] using Memory.isSome_read_write_succ hw
  case byteCk =>
    have hidx := hf.idx_succ_toNat hi.2.1
    cases execByteCk_next hu
    simpa only [hidx] using Memory.isSome_read_write_succ hw

/-- The frame registers of a state, with the bytes they count. -/
structure State.Assembling (s : State) : Prop where
  framed : s.Framed
  fresh : s.HeaderFresh
  written : s.Written

/-- Every step keeps them: the operation keeps them, and the next cycle's pins are no register. -/
theorem State.Assembling.of_step {s t : State} (hs : s.Assembling) (h : step s = .next t) : t.Assembling := by
  obtain ⟨i, u, hi, hu, rfl⟩ := step_runs h
  have hsel := runs_iff_selects.1 hi
  have hf := hs.framed.of_exec hs.fresh hsel hu
  have hh := State.HeaderFresh.of_exec hs.framed hs.fresh hsel hu
  have hw := hs.written.of_exec hs.framed hsel hu
  exact ⟨{ hf with }, { hh with }, hw⟩

theorem Reachable.assembling {s : State} (hs : Reachable s) : s.Assembling := by
  refine hs.of_invariant (P := State.Assembling) (fun h p q => ?_) (fun _ _ hs ht => hs.of_step ht)
  have hinv := invariantHoldsAtReset h p q
  exact ⟨hinv.framed, hinv.fresh, hinv.summed.written⟩

/-! ### Reset values, delivery outputs and the acceptance of a byte (R33 to R37) -/

/-- Settles O1: the two builds differ in `SYNC_HUNT` alone. -/
theorem resetStateValues : Obligations.ResetStateValues := by
  intro hunt
  refine ⟨rfl, rfl, rfl, rfl, rfl, rfl, rfl, rfl, rfl, rfl, fun _ => rfl, fun h => congrArg State.hunt h, ?_⟩
  rintro rfl
  rfl

/-- Settles O32: each output is a comparison with, or a copy of, one register. -/
theorem deliveryOutputs : Obligations.DeliveryOutputs := by
  intro s
  simp [State.out, State.frameValid, State.isStopped, State.csumOk, State.flen, State.plenOut, State.extOut]

/-- The operations that accept a byte (rows 5 to 13 of R62). -/
def byteOps : List Op :=
  [.huntDiscard, .byteSync, .byteSel, .byteLenShort, .byteLenEsc, .byteExth, .byteExtl, .byteBody, .byteCk]

/-- Every operation of the list accepts the byte it runs on. -/
theorem accepts_of_selects {s : State} {op : Op} (hop : op ∈ byteOps) (h : s.Selects op) : s.accepts = true := by
  cases op
  case reset | endClean | endMalformed | ack | nop => exact absurd hop (by decide)
  case huntDiscard | byteSync | byteSel | byteLenShort | byteLenEsc | byteExth | byteExtl | byteBody | byteCk =>
    exact h.1

/-- In a receiving state the operation of an accepted byte is one of the list. -/
theorem byteOp_mem_byteOps {s : State} (h : s.st.receiving = true) : s.byteOp ∈ byteOps := by
  unfold State.byteOp
  cases hst : s.st
  case stopped | done => simp [hst] at h
  case idle | len | body => dsimp only; split_ifs <;> decide
  case sel | exth | extl => dsimp only; decide

/-- `IDLE` or bit 3 of the encoding, as R34 writes it. -/
theorem receiving_iff_code {s : State} : s.st.receiving = true ↔ s.st = .idle ∨ s.st.code.getLsbD 3 = true := by
  rw [St.receiving, Bool.or_eq_true, beq_iff_eq, St.midFrame]

/-- Settles O34: the byte operations are the ones selected in the cycles that accept a byte. -/
theorem byteAcceptance : Obligations.ByteAcceptance := by
  refine ⟨fun s => ?_, fun s => ⟨fun h => ?_, fun ⟨op, hruns, hop⟩ => ?_⟩, fun s hst => ?_⟩
  · simp only [State.out, State.inReady, Bool.and_eq_true, Bool.not_eq_true', receiving_iff_code, and_assoc]
  · have ha : s.accepts = true := by rw [State.accepts, Bool.and_eq_true]; exact h
    exact ⟨s.byteOp, runs_iff_priorityOp.2 (priorityOp_of_accepts ha), byteOp_mem_byteOps (accepts_iff.1 ha).2.1⟩
  · have ha := accepts_of_selects hop (runs_iff_selects.1 hruns)
    rwa [State.accepts, Bool.and_eq_true] at ha
  · rcases hst with hst | hst <;> simp [State.accepts, State.inReady, hst]

/-! ### The exception registers, and the independence of frames (R28, R29, R32) -/

/-- Settles O43: one case for each operation that writes the exception registers, and their invariant. -/
theorem malformedIsSticky : Obligations.MalformedIsSticky := by
  refine ⟨fun s t h => ?_, fun s hs => ⟨fun hm => by rw [hs.trapped.clear hm]; rfl, fun hm => ?_⟩⟩
  · by_cases hraise : s.runs .endMalformed
    · have hreset : ¬s.runs .reset := fun hr => by cases runs_unique hraise hr
      obtain rfl := step_of_runs_endMalformed hraise h
      exact ⟨⟨fun _ => .inl hraise, fun _ => rfl⟩, (if_pos hraise).symm⟩
    by_cases hreset : s.runs .reset
    · obtain rfl := step_of_runs_reset hreset h
      simp [hraise, hreset]
    · obtain ⟨hm, ht⟩ := step_keeps_exception h hreset hraise
      simp [hraise, hreset, hm, ht]
  · obtain ⟨hst, hmid⟩ := hs.trapped.stopped hm
    refine ⟨?_, hst⟩
    cases htst : s.tst <;> simp [htst] at hmid ⊢

theorem boundaryByte_congr {s s' : State} (hdata : s.pins.inData = s'.pins.inData)
    (hcodec : s.pins.codecEn = s'.pins.codecEn) : s.boundaryByte = s'.boundaryByte := by
  rw [State.boundaryByte, State.boundaryByte, hdata, hcodec]

/-- What `BYTE_SYNC` leaves, by registers and buffer. -/
theorem step_of_runs_byteSync {s t : State} (hr : s.runs .byteSync) (h : step s = .next t) :
    t = s.clocked { s with
      idx := 1#17, cx := s.pins.codecEn, syncOk := isSync s.boundaryByte, acc := 0x00#8, ext := false,
      plen := 0x0000#16, rem := 0#17, st := .sel, fb := s.fb.write 0 s.boundaryByte } := by
  obtain ⟨u, hu, ht⟩ := step_next_of_runs (i := .byteSync false false false false false) hr h
  rw [ht, execByteSync_next hu]

theorem step_of_runs_ack {s t : State} (hr : s.runs .ack) (h : step s = .next t) :
    t = s.clocked { s with st := .idle } := by
  obtain ⟨_, ⟨⟩, ht⟩ := step_next_of_runs (i := .ack false false false false false false) hr h
  exact ht

/-- Settles O45: `BYTE_SYNC` writes every per-frame register from the pins, and runs in `IDLE` only. -/
theorem framesAreIndependent : Obligations.FramesAreIndependent := by
  refine ⟨fun s s' t t' hs hs' hdata hcodec ht ht' => ?_, fun s t hs ht => ?_, fun s hs hm hsync => ?_⟩
  · have hbyte := boundaryByte_congr hdata hcodec
    rw [step_of_runs_byteSync hs ht, step_of_runs_byteSync hs' ht']
    refine ⟨?_, ?_⟩
    · simp [sameRegisters, State.clocked, hbyte, hcodec]
    · simp [Memory.read_write_same, hbyte]
  · rw [step_of_runs_ack hs ht]
    rfl
  · have hstopped := (hs.trapped.stopped hm).1
    have hidle : s.st = .idle := (runs_iff_selects.1 hsync).2.1
    rw [hidle] at hstopped
    cases hstopped

/-! ### The field offsets of a held frame (R38) -/

/-- R38, R41: the index after the header is the first body byte's, or the checksum's where there is no body. -/
theorem fieldAt_headerSize (ext : Bool) (l : Length) :
    fieldAt ext l (headerSize ext) = some (if l = 0x0000#16 then .checksum else .lingo) := by
  have hl : 0 < l.toNat ↔ l ≠ 0x0000#16 := by rw [Nat.pos_iff_ne_zero, ne_eq, ne_eq, ← BitVec.toNat_inj]; rfl
  cases ext <;> by_cases h0 : l = 0x0000#16 <;> simp [fieldAt, headerSize, h0, hl]

/-- R41: the last index of a frame is the checksum's. -/
theorem fieldAt_last (ext : Bool) (l : Length) : fieldAt ext l (headerSize ext + l.toNat) = some .checksum := by
  have hhead : 3 ≤ headerSize ext := by cases ext <;> decide
  unfold fieldAt
  dsimp only
  rw [if_neg (by omega), if_neg (by omega), if_neg (by omega), if_neg (by omega), if_neg (by omega), if_pos rfl]

theorem bodyOff_toNat (s : State) : s.bodyOff.toNat = headerSize s.ext := by
  cases h : s.ext <;> simp [State.bodyOff, headerSize, h]

/-- Settles O36: in `DONE` R81 gives `idx` as the declared end, and every byte below it has been written. -/
theorem fieldOffsetsOfHeldFrame : Obligations.FieldOffsetsOfHeldFrame := by
  intro s hs hvalid
  have hst : s.st = .done := (deliveryOutputs s).1.1 hvalid
  obtain ⟨hframed, -, hwritten⟩ := hs.assembling
  have hend : s.idx.toNat = headerSize s.ext + s.plen.toNat + 1 := (hframed.done hst).2
  have hck : s.ckOff.toNat = headerSize s.ext + s.plen.toNat := by rw [State.ckOff, index_pred_toNat (by omega)]; omega
  have hhead : 3 ≤ headerSize s.ext := by cases s.ext <;> decide
  obtain ⟨b, hb⟩ := Option.isSome_iff_exists.1 (hwritten 1 (by omega))
  refine ⟨bodyOff_toNat s, ?_, ?_, ?_, b, hb, memRead_eq_byte.2 ⟨by decide, hb⟩⟩
  · show fieldAt s.ext s.plen s.bodyOff.toNat = _
    rw [bodyOff_toNat, fieldAt_headerSize]
  · show s.ckOff.toNat + 1 = _
    omega
  · show fieldAt s.ext s.plen s.ckOff.toNat = _
    rw [hck, fieldAt_last]

/-! ### The status view (R39) -/

/-- A zero-extended register stands in the low bits of its word. -/
theorem extract_setWidth_low {n : Nat} (x : BitVec n) (v : Nat) (h : n ≤ v) :
    (x.setWidth v).extractLsb' 0 n = x := by
  rw [BitVec.extractLsb'_setWidth_of_le (by omega), BitVec.extractLsb'_eq_self]

/-- The bits above it read 0. -/
theorem extract_setWidth_high {n : Nat} (x : BitVec n) (v k : Nat) : (x.setWidth v).extractLsb' n k = 0#k := by
  refine BitVec.eq_of_getLsbD_eq fun i _ => ?_
  simp

/-- Settles O2: each field is read out of the concatenation that packs its word. -/
theorem statusViewLayout : Obligations.StatusViewLayout := by
  refine ⟨fun s => ?_, fun s => ?_, fun s => ⟨rfl, rfl, rfl, rfl⟩, fun _ _ _ _ => rfl, by decide⟩
  · unfold State.statusWord
    refine ⟨?_, ?_, ?_, ?_, ?_, ?_, ?_, ?_, ?_, ?_, ?_, ?_⟩
    case refine_1 => exact BitVec.extractLsb'_append_eq_right
    case refine_10 | refine_11 | refine_12 =>
      refine BitVec.eq_of_getLsbD_eq fun i hi => ?_
      rw [BitVec.getLsbD_extractLsb']
      simp only [BitVec.getLsbD_append]
      interval_cases i <;> simp
    all_goals
      simp only [BitVec.getLsbD_append]
      simp [State.frameValid, State.csumOk, State.isStopped, St.receiving, St.midFrame, beq_eq_decide]
  · exact ⟨extract_setWidth_low _ _ (by decide), extract_setWidth_high .., extract_setWidth_low _ _ (by decide),
      extract_setWidth_high .., extract_setWidth_low _ _ (by decide), extract_setWidth_high ..⟩

end Sys2Proof.Machine
end

section
/-! PROOFS. The statements of 20_memory.md: the store of a byte (R42, R44), the buffer past its end (R40), the read port
(R43) and the frame while it is held (R48). Before them what each operation does to the buffer, and which pins an
operation reads. -/

namespace Sys2Proof.Machine

/-! ### The buffer past its end (R40) -/

/-- Settles O57: both operations write at `idx`, where there is no byte. -/
theorem storePastBufferFaults : Obligations.StorePastBufferFaults := fun _ _ _ _ _ hidx =>
  ⟨memWrite_of_ge hidx, memWrite_of_ge hidx⟩

/-! ### The held frame (R48) -/

/-- Settles O39: in `DONE` without a reset only `ACK` and `NOP` run. -/
theorem noWriteWhileHeld : Obligations.NoWriteWhileHeld := by
  intro s t hst hrst h
  cases hack : s.pins.frameAck
  case true =>
    have hruns : s.runs .ack := runs_iff_selects.2 ⟨hrst, hack, hst⟩
    rw [step_of_runs_ack hruns h]
    rfl
  case false =>
    have hruns : s.runs .nop := runs_iff_selects.2 ⟨hrst, .inr (.inl ⟨hst, hack⟩)⟩
    rw [step_of_runs_nop hruns h, ← hst]
    rfl

/-! ### The store of a byte (R42, R44) -/

/-- The buffer after each operation, from the registers and pins before it. -/
def State.fbAfter (s : State) : Op → Memory
  | .reset => []
  | .endClean | .endMalformed | .ack | .huntDiscard | .nop => s.fb
  | .byteSync => s.fb.write 0 s.boundaryByte
  | .byteSel => s.fb.write 1 s.frameByte
  | .byteLenShort => s.fb.write 2 s.frameByte
  | .byteLenEsc => s.fb.write 2 0x00#8
  | .byteExth => s.fb.write 3 s.frameByte
  | .byteExtl => s.fb.write 4 s.frameByte
  | .byteBody | .byteCk => s.fb.write s.idx.toNat s.frameByte

/-- Beside its register writes a `memWrite` writes its byte to the buffer before the edge. -/
theorem fb_of_memWrite {s t u : State} {i : Nat} {d : Byte} (h : memWrite s i d t = .next u) :
    u.fb = s.fb.write i d := congrArg State.fb (memWrite_next h).2

theorem exec_fb {i : Instr} {s u : State} (hu : exec i s = .next u) : u.fb = s.fbAfter i.op := by
  cases i
  case reset | endClean | endMalformed | ack | huntDiscard | nop => cases hu; rfl
  case byteSync | byteSel | byteLenShort | byteLenEsc | byteExth | byteExtl | byteBody | byteCk =>
    exact fb_of_memWrite hu

/-- The next cycle's pins are no part of the buffer. -/
theorem step_fb {s t : State} {op : Op} (hr : s.runs op) (h : step s = .next t) : t.fb = s.fbAfter op := by
  obtain ⟨i, u, hi, hu, rfl⟩ := step_runs h
  rw [clocked_fb, exec_fb hu, runs_unique hi hr]

/-- Apart from `RESET`, an operation that takes no byte keeps the buffer. -/
theorem fbAfter_of_not_mem_byteOps {s : State} {op : Op} (hreset : op ≠ .reset) (hop : op ∉ byteOps) :
    s.fbAfter op = s.fb := by
  cases op
  case reset => exact absurd rfl hreset
  case endClean | endMalformed | ack | nop => rfl
  case huntDiscard | byteSync | byteSel | byteLenShort | byteLenEsc | byteExth | byteExtl | byteBody | byteCk =>
    exact absurd (by decide) hop

/-- A byte that is kept goes, decoded, to the index R81 gives its state: for a header byte the fixed index of its rule
is `idx`. -/
theorem fbAfter_of_byteOp {s : State} {op : Op} (hf : s.Framed) (hs : s.Selects op) (hop : op ∈ byteOps)
    (hdrop : op ≠ .huntDiscard) :
    s.fbAfter op = s.fb.write (if s.st = .idle then 0 else s.idx.toNat) s.decodedByte := by
  cases op
  case reset | endClean | endMalformed | ack | nop => exact absurd hop (by decide)
  case huntDiscard => exact absurd rfl hdrop
  case byteSync =>
    obtain ⟨-, hst, -⟩ := hs
    simp [State.fbAfter, hst, decodedByte_of_idle]
  case byteSel =>
    obtain ⟨-, hst⟩ := hs
    simp [State.fbAfter, hst, decodedByte_of_ne_idle, hf.sel]
  case byteLenShort =>
    obtain ⟨-, hst, -⟩ := hs
    simp [State.fbAfter, hst, decodedByte_of_ne_idle, hf.len]
  case byteLenEsc =>
    obtain ⟨-, hst, hesc⟩ := hs
    simp [State.fbAfter, hst, decodedByte_of_ne_idle, hf.len, (isEscape_iff _).1 hesc]
  case byteExth =>
    obtain ⟨-, hst⟩ := hs
    simp [State.fbAfter, hst, decodedByte_of_ne_idle, hf.exth]
  case byteExtl =>
    obtain ⟨-, hst⟩ := hs
    simp [State.fbAfter, hst, decodedByte_of_ne_idle, hf.extl]
  case byteBody | byteCk =>
    obtain ⟨-, hst, -⟩ := hs
    simp [State.fbAfter, hst, decodedByte_of_ne_idle]

/-- A cycle that takes no byte keeps the buffer, but for a reset. -/
theorem step_keeps_fb {s t : State} (hrst : s.pins.rst = false) (ha : s.accepts = false) (h : step s = .next t) :
    t.fb = s.fb := by
  have hruns : s.runs s.priorityOp := runs_iff_priorityOp.2 rfl
  have hreset : s.priorityOp ≠ .reset := fun hop => by
    have hset : s.Selects .reset := hop ▸ selects_priorityOp s
    simp [State.Selects, hrst] at hset
  have hop : s.priorityOp ∉ byteOps := fun hop => by simp [accepts_of_selects hop (selects_priorityOp s)] at ha
  rw [step_fb hruns h, fbAfter_of_not_mem_byteOps hreset hop]

/-- A cycle that takes a byte and keeps it writes that byte. -/
theorem step_stores_byte {s t : State} (hf : s.Framed) (ha : s.accepts = true) (hdrop : ¬s.runs .huntDiscard)
    (h : step s = .next t) : t.fb = s.fb.write (if s.st = .idle then 0 else s.idx.toNat) s.decodedByte := by
  have hruns : s.runs s.byteOp := runs_iff_priorityOp.2 (priorityOp_of_accepts ha)
  have hop : s.byteOp ∈ byteOps := byteOp_mem_byteOps (accepts_iff.1 ha).2.1
  have hkept : s.byteOp ≠ .huntDiscard := fun heq => hdrop (heq ▸ hruns)
  rw [step_fb hruns h, fbAfter_of_byteOp hf (selects_byteOp ha) hop hkept]

theorem storedAt_write (m : Memory) (i : Nat) (d : Byte) : storedAt m (m.write i d) i d :=
  ⟨m.read_write_same i d, fun _ hj => m.read_write_other d hj⟩

/-- Settles O38: the buffer after `RESET`, after a cycle that keeps no byte, and after a byte kept in a state that R81
frames. -/
theorem oneBufferWritePerByte : Obligations.OneBufferWritePerByte := by
  intro s t h
  refine ⟨fun hrst i => ?_, fun hrst hkeep i => ?_, fun ha hdrop hs => ?_⟩
  · have hruns : s.runs .reset := runs_iff_selects.2 hrst
    rw [step_fb hruns h]
    rfl
  · rcases hkeep with ha | hdrop
    · rw [step_keeps_fb hrst ha h]
    · rw [step_fb hdrop h]
      rfl
  · rw [step_stores_byte hs.assembling.framed ha hdrop h]
    exact storedAt_write ..

/-! ### The read port (R43) -/

theorem memRead_of_ge {s : State} {i : Nat} (hi : Config.fbDepth ≤ i) : memRead s i = .stops (.noSuchByte i) :=
  if_pos hi

theorem memRead_of_unwritten {s : State} {i : Nat} (hi : i < Config.fbDepth) (hr : s.fb.read i = none) :
    memRead s i = .stops (.unwrittenByte i) := by
  rw [memRead, if_neg (not_le.2 hi), hr]

/-- Every byte that `idx` counts is readable. -/
theorem exists_memRead_of_lt_idx {s : State} {i : Nat} (hs : Reachable s) (hi : i < s.idx.toNat) :
    ∃ b, memRead s i = .byte b := by
  obtain ⟨hframed, -, hwritten⟩ := hs.assembling
  obtain ⟨b, hb⟩ := Option.isSome_iff_exists.1 (hwritten i hi)
  exact ⟨b, memRead_eq_byte.2 ⟨lt_of_lt_of_le hi hframed.bound, hb⟩⟩

/-- The same registers: only the pins and the later inputs can differ. -/
theorem sameRegisters_iff {t t' : State} : sameRegisters t t' ↔ ∃ p q, t' = { t with pins := p, stim := q } :=
  ⟨fun h => ⟨_, _, h.symm⟩, by rintro ⟨p, q, rfl⟩; exact rfl⟩

theorem sameRegisters_clocked {t t' : State} (s s' : State) (h : sameRegisters t t') :
    sameRegisters (s.clocked t) (s'.clocked t') := by
  obtain ⟨p, q, rfl⟩ := sameRegisters_iff.1 h
  exact rfl

theorem sameRegisters_store {t t' : State} (m : Memory) (h : sameRegisters t t') :
    sameRegisters { t with fb := m } { t' with fb := m } := by
  obtain ⟨p, q, rfl⟩ := sameRegisters_iff.1 h
  exact rfl

/-- The same byte beside the same register writes answers alike. -/
theorem sameEffect_memWrite {s s' t t' : State} (i : Nat) (d : Byte) (hfb : s.fb = s'.fb) (ht : sameRegisters t t') :
    sameEffect (memWrite s i d t) (memWrite s' i d t') := by
  rw [memWrite, memWrite, hfb]
  split_ifs
  · exact sameRegisters_store _ ht
  · exact rfl

/-- Of the pins an operation reads `in_data` and `codec_en` alone: the others are conditions of the decode word, or
feed the read port. The index of a header byte exists, so only a byte of `BODY` can stop, and then does so for both. -/
theorem sameEffect_exec_of_same_operands (i : Instr) (s : State) (v e a r : Bool) (x : Index) :
    sameEffect (exec i s)
      (exec i { s with pins := { s.pins with inValid := v, srcEnd := e, frameAck := a, rst := r, raddr := x } }) := by
  cases i
  case reset | endClean | endMalformed | ack | huntDiscard | nop => exact rfl
  case byteSync | byteSel | byteLenShort | byteLenEsc | byteExth | byteExtl => exact rfl
  case byteBody | byteCk => exact sameEffect_memWrite _ _ rfl rfl

/-- Two cycles of one operation have the same effect where the operation has: the next cycle's pins are no register. -/
theorem sameEffect_step {s s' : State} {i : Instr} (hs : s.runs i.op) (hs' : s'.runs i.op)
    (h : sameEffect (exec i s) (exec i s')) : sameEffect (step s) (step s') := by
  rw [step_of_runs hs, step_of_runs hs']
  revert h
  cases exec i s <;> cases exec i s' <;> intro h
  case next.next => exact sameRegisters_clocked s s' h
  all_goals exact h

/-- The read index is no part of the decode word, and no operation reads it. -/
theorem sameEffect_step_raddr (s : State) (x : Index) :
    sameEffect (step s) (step { s with pins := { s.pins with raddr := x } }) := by
  have hruns := runs_of_decode (decode_opWord s)
  exact sameEffect_step hruns hruns (sameEffect_exec_of_same_operands ..)

/-- Settles O37: the three answers of a buffer read, the step's independence of the index, and the bytes of R84. -/
theorem readPort : Obligations.ReadPort :=
  ⟨fun _ _ hi hr => memRead_eq_byte.2 ⟨hi, hr⟩, fun _ hi hr => memRead_of_unwritten hi hr, fun _ hi => memRead_of_ge hi,
    sameEffect_step_raddr, fun _ hs _ hi => exists_memRead_of_lt_idx hs hi⟩

end Sys2Proof.Machine
end

section
/-! PROOFS. The statements of 30_encoding.md: the word of an instruction and back, and the operation map (R61, R62), the
decode word of a cycle (R61), the input word and the pins that a cycle ignores (R60, R63), the held length (R56) and
the frames of a stimulus script (R65). -/

namespace Sys2Proof
open Machine

/-! ### The word of an instruction, and back (R61, R62) -/

/-- The decoder reads an instruction's free bits where the encoder put them. -/
theorem readOperands_encode (i : Instr) : i.op.readOperands (encode i) = i := by
  cases i
  case reset => exact Laws.OperandsRead.reset ..
  case endClean => exact Laws.OperandsRead.endClean ..
  case endMalformed => exact Laws.OperandsRead.endMalformed ..
  case ack => exact Laws.OperandsRead.ack ..
  case huntDiscard => exact Laws.OperandsRead.huntDiscard ..
  case byteSync => exact Laws.OperandsRead.byteSync ..
  case byteSel => exact Laws.OperandsRead.byteSel ..
  case byteLenShort => exact Laws.OperandsRead.byteLenShort ..
  case byteLenEsc => exact Laws.OperandsRead.byteLenEsc ..
  case byteExth => exact Laws.OperandsRead.byteExth ..
  case byteExtl => exact Laws.OperandsRead.byteExtl ..
  case byteBody => exact Laws.OperandsRead.byteBody ..
  case byteCk => exact Laws.OperandsRead.byteCk ..
  case nop => exact Laws.OperandsRead.nop ..

/-- Bits 15:12 of every encoding are 0 (R61). -/
theorem reserved_encode (i : Instr) : (encode i).extractLsb' 12 4 = 0#4 := by
  cases i <;> exact reserved_packEW ..

/-- Mid-frame states are the codes with bit 3 set, so none is `IDLE` (R19). -/
theorem midFrame_code (s : BitVec 3) : (1#1 ++ s : BitVec 4).getLsbD 3 = true ∧ (1#1 ++ s : BitVec 4) ≠ 0#4 := by
  revert s; decide

/-- The cycles of the NOP row are those that rows 1 to 13 leave (R63): in `STOPPED` and `DONE` no byte is taken, and a
receiving state is offered none. -/
theorem selectOp_packEW_of_nopCycle {h m z t : Bool} {s : BitVec 4} {a v e r : Bool}
    (hn : nopCycle s a v e r = true) : selectOp (packEW h m z t s a v e r) = .nop := by
  simp only [nopCycle, receivingStateCode, Bool.and_eq_true, Bool.or_eq_true, Bool.not_eq_true', beq_iff_eq] at hn
  obtain ⟨rfl, (⟨rfl, rfl⟩ | rfl) | ⟨⟨hrec, rfl⟩, rfl⟩⟩ := hn
  · simp [selectOp_packEW]
  · simp [selectOp_packEW]
  · have hdone : s ≠ 0b0010#4 := by rintro rfl; simp at hrec
    simp [selectOp_packEW, hdone]

/-- The map selects a well-formed instruction's own operation: no earlier row takes its word. -/
theorem selectOp_encode {i : Instr} (hi : i.wellFormed = true) : selectOp (encode i) = i.op := by
  cases i
  case nop =>
    simp only [Instr.wellFormed, Bool.and_eq_true] at hi
    exact selectOp_packEW_of_nopCycle hi.2
  case byteSync h m z t a =>
    have hkept : h = true → m = true := by
      simp only [Instr.wellFormed, Bool.and_eq_true] at hi
      simpa [imp_iff_not_or] using hi.2
    simpa [encode, selectOp_packEW, Instr.op] using hkept
  case endMalformed _ _ _ _ s _ _ =>
    obtain ⟨hbit, hidle⟩ := midFrame_code s
    simp [encode, selectOp_packEW, Instr.op, hbit, hidle]
  case reset | endClean | ack | huntDiscard | byteSel | byteLenShort | byteLenEsc | byteExth | byteExtl | byteBody
      | byteCk => simp [encode, selectOp_packEW, Instr.op]

/-- Settles O21: the map selects the instruction's operation, whose free bits are then read back. -/
theorem decodeEncodeRoundTrip : Obligations.DecodeEncodeRoundTrip := by
  intro i hi
  rw [decode, if_pos (reserved_encode i), selectOp_encode hi, readOperands_encode]

/-- Settles O23: nine words with their free bits, and one with bit 12 set. -/
theorem specWordsDecode : Obligations.SpecWordsDecode := by
  unfold Obligations.SpecWordsDecode
  decide

/-- A word whose reserved bits are 0 is its fields, packed (R61). -/
theorem packEW_fields {w : OpWord} (hw : w.extractLsb' 12 4 = 0#4) :
    packEW (fieldH w) (fieldM w) (fieldZ w) (fieldT w) (fieldS w) (fieldA w) (fieldV w) (fieldE w) (fieldR w) = w := by
  rw [opWord_eq_iff_fields]
  simp [hw]

/-- The bit that `END_MALFORMED` fixes is put back before the three it leaves free. -/
theorem cons_low_bits {s : BitVec 4} (h : s.getLsbD 3 = true) : (1#1 ++ s.extractLsb' 0 3 : BitVec 4) = s := by
  revert s; decide

/-- Under the mask of bit 3 alone a state code shows that bit (row 3 of R62). -/
theorem and_bit3_eq_iff (s : BitVec 4) : s &&& 0b1000#4 = 0b1000#4 ↔ s.getLsbD 3 = true := by revert s; decide

/-- The fields that a row tests hold its fixed bits in every word it matches; the others are read as free bits. -/
theorem encode_readOperands_of_hits {row : OpRow} {w : OpWord} (hw : w.extractLsb' 12 4 = 0#4) (hrow : row ∈ opMap)
    (hit : row.hits w = true) : encode (row.op.readOperands w) = w := by
  have whole (s : BitVec 4) : s &&& 0b1111#4 = s := BitVec.and_allOnes
  rw [← packEW_fields hw] at hit ⊢
  generalize fieldH w = h, fieldM w = m, fieldZ w = z, fieldT w = t, fieldS w = s, fieldA w = a, fieldV w = v,
    fieldE w = e, fieldR w = r at hit ⊢
  simp only [opMap, List.mem_cons, List.not_mem_nil, or_false] at hrow
  rcases hrow with rfl | rfl | rfl | rfl | rfl | rfl | rfl | rfl | rfl | rfl | rfl | rfl | rfl | rfl
  all_goals
    rw [hits_packEW, decide_eq_true_iff] at hit
    simp [fieldH, fieldM, fieldZ, fieldT, fieldS, fieldA, fieldV, fieldE, fieldR, whole, and_bit3_eq_iff] at hit
    simp [Op.readOperands, encode, hit, cons_low_bits]

/-- A word that decodes is the word of its instruction: a row of the map matches it. -/
theorem encode_of_decode {w : OpWord} {i : Instr} (h : decode w = .ok i) : encode i = w := by
  unfold decode at h
  split_ifs at h with hw
  cases h
  obtain ⟨row, hrow, hop, hit⟩ := exists_row_of_selectOp w
  rw [← hop]
  exact encode_readOperands_of_hits hw hrow hit

/-! ### The operation map (R62) -/

theorem OpRow.hits_iff (row : OpRow) (w : OpWord) : row.hits w = true ↔ w &&& row.mask = row.pattern := beq_iff_eq

/-- The map is searched from its first row, and the last row matches every word. -/
theorem exists_first_row (w : OpWord) : ∃ (k : Nat) (row : OpRow), opMap[k]? = some row ∧ row.hits w = true ∧
    selectOp w = row.op ∧ ∀ (j : Nat) (earlier : OpRow), j < k → opMap[j]? = some earlier → earlier.hits w = false := by
  obtain ⟨row, hfind⟩ : ∃ row, opMap.find? (fun row => row.hits w) = some row := by
    obtain ⟨row, hrow, -, hit⟩ := exists_row_of_selectOp w
    exact Option.isSome_iff_exists.1 (List.find?_isSome.2 ⟨row, hrow, hit⟩)
  obtain ⟨hit, k, hk, hget, hfirst⟩ := List.find?_eq_some_iff_getElem.1 hfind
  refine ⟨k, row, hget ▸ List.getElem?_eq_getElem hk, hit, by rw [selectOp, hfind], fun j earlier hj hearlier => ?_⟩
  obtain ⟨hlt, rfl⟩ := List.getElem?_eq_some_iff.1 hearlier
  simpa using hfirst j hj

/-- Two rows ask different values of a bit that both test. -/
abbrev OpRow.Conflicts (x y : OpRow) : Prop := x.pattern &&& y.mask ≠ y.pattern &&& x.mask

/-- Row `x` tests every bit that `y` tests, and asks the same value of it. -/
abbrev OpRow.Refines (x y : OpRow) : Prop := x.mask &&& y.mask = y.mask ∧ x.pattern &&& y.mask = y.pattern

theorem OpRow.Conflicts.hits_eq_false {x y : OpRow} {w : OpWord} (h : x.Conflicts y) (hx : x.hits w = true) :
    y.hits w = false := by
  rw [OpRow.hits_iff] at hx
  rw [← Bool.not_eq_true, OpRow.hits_iff]
  intro hy
  apply h
  calc x.pattern &&& y.mask = w &&& x.mask &&& y.mask := by rw [hx]
    _ = w &&& y.mask &&& x.mask := by rw [BitVec.and_assoc, BitVec.and_comm x.mask, ← BitVec.and_assoc]
    _ = y.pattern &&& x.mask := by rw [hy]

theorem OpRow.Refines.hits {x y : OpRow} {w : OpWord} (h : x.Refines y) (hx : x.hits w = true) : y.hits w = true := by
  obtain ⟨hmask, hpattern⟩ := h
  rw [OpRow.hits_iff] at hx ⊢
  calc w &&& y.mask = w &&& (x.mask &&& y.mask) := by rw [hmask]
    _ = w &&& x.mask &&& y.mask := (BitVec.and_assoc ..).symm
    _ = y.pattern := by rw [hx, hpattern]

/-- Rows 1 to 13 conflict pairwise, but for rows 5 and 6. -/
theorem conflicts_of_lt {i j : Nat} {x y : OpRow} (hij : i < j) (hj : j < 13) (hne : ¬(i = 4 ∧ j = 5))
    (hx : opMap[i]? = some x) (hy : opMap[j]? = some y) : x.Conflicts y := by
  have hall : ∀ j < 13, ∀ i < j, ¬(i = 4 ∧ j = 5) → ∀ x ∈ opMap[i]?, ∀ y ∈ opMap[j]?, x.Conflicts y := by decide
  exact hall j hj i hij hne x hx y hy

/-- Every byte row tests `E` for 0. -/
theorem fieldE_of_byteRow {i : Nat} {x : OpRow} {w : OpWord} (hi : 4 ≤ i) (hi' : i < 13) (hx : opMap[i]? = some x)
    (hit : x.hits w = true) : fieldE w = false := by
  have hall : ∀ i < 13, 4 ≤ i → ∀ x ∈ opMap[i]?, fieldE x.mask = true ∧ fieldE x.pattern = false := by decide
  obtain ⟨hmask, hpattern⟩ := hall i hi' hi x hx
  calc fieldE w = fieldE (w &&& x.mask) := by rw [fieldE_and, hmask, Bool.and_true]
    _ = false := by rw [(x.hits_iff w).1 hit, hpattern]

/-- Settles O18: R62 row by row, then the pairs of rows by the bits they test. -/
theorem operationMapSelectsOneRow : Obligations.OperationMapSelectsOneRow := by
  refine ⟨rfl, rfl, fun w => ?_, fun i j x y w hij hj hne hx hy => (conflicts_of_lt hij hj hne hx hy).hits_eq_false,
    fun x y w hx hy => ?_, fun i x w hi hi' hx => fieldE_of_byteRow hi hi' hx⟩
  · obtain ⟨k, row, hget, hit, hop, hfirst⟩ := exists_first_row w
    refine ⟨k, row, hget, (row.hits_iff w).1 hit, hop, fun j earlier hj hearlier hmatch => ?_⟩
    have hmiss := hfirst j earlier hj hearlier
    rw [(earlier.hits_iff w).2 hmatch] at hmiss
    cases hmiss
  · cases hx
    cases hy
    exact OpRow.Refines.hits ⟨rfl, rfl⟩

end Sys2Proof

namespace Sys2Proof.Machine

/-! ### The fields of a cycle's decode word (R61) -/

section opWord
variable (s : State)

@[simp] theorem fieldH_opWord : fieldH s.opWord = s.hunt := fieldH_packEW ..
@[simp] theorem fieldM_opWord : fieldM s.opWord = isSync s.decodedByte := fieldM_packEW ..
@[simp] theorem fieldZ_opWord : fieldZ s.opWord = isEscape s.decodedByte := fieldZ_packEW ..
@[simp] theorem fieldT_opWord : fieldT s.opWord = s.lastByte := fieldT_packEW ..
@[simp] theorem fieldA_opWord : fieldA s.opWord = s.pins.frameAck := fieldA_packEW ..
@[simp] theorem fieldV_opWord : fieldV s.opWord = s.pins.inValid := fieldV_packEW ..
@[simp] theorem fieldE_opWord : fieldE s.opWord = s.pins.srcEnd := fieldE_packEW ..
@[simp] theorem fieldR_opWord : fieldR s.opWord = s.pins.rst := fieldR_packEW ..
@[simp] theorem reserved_opWord : s.opWord.extractLsb' 12 4 = 0#4 := reserved_packEW ..
end opWord

/-- Settles O19: each field of the packed word, with the decoded byte as R68 writes it. -/
theorem decodeWordFields : Obligations.DecodeWordFields := by
  intro s
  have hbyte : unmasked (if s.st = .idle then s.pins.codecEn else s.cx) s.pins.inData = s.decodedByte :=
    unmasked_eq_codecIf ..
  rw [hbyte]
  refine ⟨fieldR_opWord s, fieldE_opWord s, fieldV_opWord s, fieldA_opWord s, fieldS_opWord s, ?_, ?_, ?_,
    fieldH_opWord s, reserved_opWord s⟩
  · exact (fieldT_opWord s).trans (beq_eq_decide ..)
  · exact (fieldZ_opWord s).trans (beq_eq_decide ..)
  · exact (fieldM_opWord s).trans (beq_eq_decide ..)

/-! ### Every cycle's word is well-formed (log 11) -/

theorem legalStateCode_code (st : St) : legalStateCode st.code = true := by cases st <;> decide

/-- The code of a mid-frame state with its bit 3 dropped and put back. -/
theorem legalStateCode_of_midFrame {st : St} (h : st.midFrame = true) :
    legalStateCode (1#1 ++ st.code.extractLsb' 0 3) = true := by
  rw [cons_low_bits h, legalStateCode_code]

/-- R61: one byte is not both 0x00 and `SYNC_VALUE`. -/
theorem oneByte_isEscape_isSync (d : Byte) : oneByte (isEscape d) (isSync d) = true := by
  have hne : d = 0x00#8 → d ≠ Config.syncValue := by rintro rfl; decide
  simpa [oneByte, imp_iff_not_or] using hne

/-- The cycles of `NOP` are those of R63, on the fields of the word. -/
theorem nopCycle_of_selects {s : State} (h : s.Selects .nop) :
    nopCycle s.st.code s.pins.frameAck s.pins.inValid s.pins.srcEnd s.pins.rst = true := by
  obtain ⟨hrst, hst | ⟨hst, hack⟩ | ⟨hrec, hend, hvalid⟩⟩ := h
  · rw [nopCycle, hrst, hst]; rfl
  · rw [nopCycle, hrst, hst, hack]; rfl
  · have hcode : receivingStateCode s.st.code = true := by cases hst : s.st <;> simp [hst] at hrec <;> rfl
    simp [nopCycle, hrst, hend, hvalid, hcode]

/-- The word of a cycle is a well-formed one of the operation it selects. -/
theorem wellFormed_readOperands {s : State} {op : Op} (h : s.Selects op) :
    (op.readOperands s.opWord).wellFormed = true := by
  have hbyte := oneByte_isEscape_isSync s.decodedByte
  cases op
  case reset => simp [Op.readOperands, Instr.wellFormed, hbyte, legalStateCode_code]
  case endMalformed => simp [Op.readOperands, Instr.wellFormed, hbyte, legalStateCode_of_midFrame h.2.2]
  case byteSync =>
    obtain ⟨-, hst, hsync⟩ := h
    rw [decodedByte_of_idle hst] at hbyte
    simpa [Op.readOperands, Instr.wellFormed, hbyte, decodedByte_of_idle hst, imp_iff_not_or] using hsync
  case byteLenEsc =>
    obtain ⟨-, hst, hesc⟩ := h
    have hne : s.st ≠ .idle := by simp [hst]
    rw [decodedByte_of_ne_idle hne, hesc] at hbyte
    simpa [Op.readOperands, Instr.wellFormed, decodedByte_of_ne_idle hne] using hbyte
  case nop => simp [Op.readOperands, Instr.wellFormed, hbyte, legalStateCode_code, nopCycle_of_selects h]
  case huntDiscard | byteLenShort => rfl
  case endClean | ack | byteSel | byteExth | byteExtl | byteBody | byteCk =>
    simp [Op.readOperands, Instr.wellFormed, hbyte]

/-- Settles O22: the row that takes a word fixes its tested bits, and a cycle selects only its own operation's words. -/
theorem decodedWordsEncodeBack : Obligations.DecodedWordsEncodeBack := by
  refine ⟨fun _ _ h => encode_of_decode h, fun s => ⟨_, decode_opWord s, ?_⟩⟩
  rw [selectOp_opWord]
  exact wellFormed_readOperands (selects_priorityOp s)

/-! ### The word that `withFetchWord` places (log 10) -/

/-- A state is found by its own code only. -/
theorem code_of_ofCode {c : BitVec 4} {st : St} (h : St.ofCode c = some st) : st.code = c := by
  simpa using List.find?_some h

/-- A legal state code is the code of the state placed. -/
theorem code_stateForWord {w : OpWord} (h : legalStateCode (fieldS w) = true) :
    (stateForWord w).code = fieldS w := by
  unfold stateForWord
  have hlegal : ∀ c, legalStateCode c = true → (St.ofCode c).isSome = true := by decide
  obtain ⟨st, hst⟩ := Option.isSome_iff_exists.1 (hlegal _ h)
  rw [hst, Option.getD_some, code_of_ofCode hst]

/-- The byte placed is the one that `Z` and `M` speak of. -/
theorem flags_byteForWord {w : OpWord} (h : oneByte (fieldZ w) (fieldM w) = true) (d : Byte) :
    isEscape (byteForWord w d) = fieldZ w ∧ isSync (byteForWord w d) = fieldM w := by
  unfold byteForWord
  cases hM : fieldM w
  case true =>
    have hZ : fieldZ w = false := by simpa [oneByte, hM] using h
    simp [hZ, isEscape, isSync, Config.syncValue]
  case false =>
    cases hZ : fieldZ w
    case true => simp [isEscape, isSync, Config.syncValue]
    case false =>
      simp only [Bool.false_and, Bool.false_eq_true, ↓reduceIte, isEscape_eq_false_iff, isSync_eq_false_iff]
      split_ifs with hd
      · decide
      · exact not_or.1 hd

section withFetchWord
variable (s : State) (w : OpWord)

/-- The word placed is the whole word given. -/
theorem ofNat_toNat_mod (w : OpWord) : BitVec.ofNat 16 (w.toNat % 2 ^ 16) = w := by
  rw [Nat.mod_eq_of_lt w.isLt, BitVec.ofNat_toNat, BitVec.setWidth_eq]

theorem withFetchWord_st : (s.withFetchWord 16 w.toNat).st = stateForWord w := by
  simp only [State.withFetchWord, ofNat_toNat_mod]

theorem withFetchWord_rem : (s.withFetchWord 16 w.toNat).rem =
    if s.lastByte == fieldT w then s.rem else if fieldT w then 1#17 else 0#17 := by
  simp only [State.withFetchWord, ofNat_toNat_mod]

theorem withFetchWord_lastByte : (s.withFetchWord 16 w.toNat).lastByte = fieldT w := by
  rw [State.lastByte, withFetchWord_rem]
  split_ifs with hsame hT
  · exact beq_iff_eq.1 hsame
  · exact hT.symm
  · exact (Bool.eq_false_of_not_eq_true hT).symm

/-- The codec is undone under the flag of the state placed. -/
theorem withFetchWord_decodedByte : (s.withFetchWord 16 w.toNat).decodedByte =
    byteForWord w (codecIf (if stateForWord w = .idle then s.pins.codecEn else s.cx) s.pins.inData) := by
  simp only [State.withFetchWord, ofNat_toNat_mod]
  exact codecIf_codecIf ..
end withFetchWord

/-- Settles O25: every field of the word placed. -/
theorem fetchWordIsSelected : Obligations.FetchWordIsSelected := by
  intro s w hres hst hbyte
  obtain ⟨hZ, hM⟩ := flags_byteForWord hbyte
    (codecIf (if stateForWord w = .idle then s.pins.codecEn else s.cx) s.pins.inData)
  rw [← withFetchWord_decodedByte] at hZ hM
  rw [opWord_eq_iff_fields, reserved_opWord, fieldH_opWord, fieldM_opWord, fieldZ_opWord, fieldT_opWord, fieldS_opWord,
    fieldA_opWord, fieldV_opWord, fieldE_opWord, fieldR_opWord, withFetchWord_st, withFetchWord_lastByte,
    code_stateForWord hst]
  refine ⟨hres.symm, ?_, hM, hZ, rfl, rfl, ?_, ?_, ?_, ?_⟩
  all_goals simp only [State.withFetchWord, ofNat_toNat_mod]

/-! ### The pins that a cycle ignores (R60, R63, R92, R93) -/

/-- R60: each level is read out of the concatenation that packs the word. -/
theorem inputWord_fields (p : Pins) :
    p.toWord.extractLsb' 0 8 = p.inData ∧ p.toWord.getLsbD 8 = p.inValid ∧ p.toWord.getLsbD 9 = p.srcEnd ∧
      p.toWord.getLsbD 10 = p.frameAck ∧ p.toWord.getLsbD 11 = p.codecEn ∧ p.toWord.getLsbD 12 = p.rst := by
  unfold Pins.toWord
  refine ⟨BitVec.extractLsb'_append_eq_right, ?_, ?_, ?_, ?_, ?_⟩
  all_goals
    simp only [BitVec.getLsbD_append]
    simp

/-- The levels of a word that levels were packed into are those levels. -/
theorem ofWord_toWord (p : Pins) : Pins.ofWord p.toWord p.raddr = p := by
  obtain ⟨hdata, hvalid, hend, hack, hcodec, hrst⟩ := inputWord_fields p
  rw [Pins.ofWord, hdata, hvalid, hend, hack, hcodec, hrst]

/-- An operation that takes no byte reads no pin. -/
theorem sameEffect_exec_of_not_mem_byteOps {i : Instr} {s s' : State} (hi : i.op ∉ byteOps) (h : sameRegisters s s') :
    sameEffect (exec i s) (exec i s') := by
  obtain ⟨p, q, rfl⟩ := sameRegisters_iff.1 h
  cases i
  case reset | endClean | endMalformed | ack | nop => exact rfl
  case huntDiscard | byteSync | byteSel | byteLenShort | byteLenEsc | byteExth | byteExtl | byteBody | byteCk =>
    exact absurd (by simp [byteOps, Instr.op]) hi

/-- Two cycles have the same effect where the pins of the second select the first's operation and it does as much. -/
theorem sameEffect_step_of_selects {s s' : State} (hsel : ∀ op, s.Selects op → s'.Selects op)
    (hexec : ∀ i, s.Selects i.op → sameEffect (exec i s) (exec i s')) : sameEffect (step s) (step s') := by
  have hruns := runs_of_decode (decode_opWord s)
  have hs := runs_iff_selects.1 hruns
  exact sameEffect_step hruns (runs_iff_selects.2 (hsel _ hs)) (hexec _ hs)

/-- While `in_ready` is 0 no byte operation is selected. -/
theorem not_mem_byteOps_of_not_inReady {s : State} {op : Op} (hready : s.inReady = false) (h : s.Selects op) :
    op ∉ byteOps := fun hop => by
  have ha := accepts_of_selects hop h
  simp [State.accepts, hready] at ha

/-- The operations that take no byte are selected without `in_data`, and `NOP` asks for `in_valid` only in a cycle
with `in_ready` 1. -/
theorem selects_of_not_inReady {s : State} {op : Op} (v : Bool) (d : Byte) (hready : s.inReady = false)
    (h : s.Selects op) : State.Selects { s with pins := { s.pins with inValid := v, inData := d } } op := by
  have hop := not_mem_byteOps_of_not_inReady hready h
  cases op
  case reset | endClean | endMalformed | ack => exact h
  case nop =>
    obtain ⟨hrst, hst | hack | ⟨hrec, hend, -⟩⟩ := h
    · exact ⟨hrst, .inl hst⟩
    · exact ⟨hrst, .inr (.inl hack)⟩
    · simp [State.inReady, hrec, hend, hrst] at hready
  case huntDiscard | byteSync | byteSel | byteLenShort | byteLenEsc | byteExth | byteExtl | byteBody | byteCk =>
    exact absurd (by decide) hop

/-- A byte offered while `in_ready` is 0 has no effect. -/
theorem sameEffect_step_of_not_inReady {s : State} (v : Bool) (d : Byte) (hready : s.inReady = false) :
    sameEffect (step s) (step { s with pins := { s.pins with inValid := v, inData := d } }) :=
  sameEffect_step_of_selects (fun _ h => selects_of_not_inReady v d hready h) fun _ h =>
    sameEffect_exec_of_not_mem_byteOps (not_mem_byteOps_of_not_inReady hready h) rfl

/-- Settles O3: the layout of `IW`, and the pins that a cycle with `in_ready` 0 does not look at. -/
theorem inputWordAndHandshake : Obligations.InputWordAndHandshake := by
  refine ⟨fun p => ?_, sameEffect_step_raddr, fun s => Bool.and_eq_true_iff,
    fun s v d hready => sameEffect_step_of_not_inReady v d hready⟩
  obtain ⟨hdata, hvalid, hend, hack, hcodec, hrst⟩ := inputWord_fields p
  exact ⟨hdata, hvalid, hend, hack, hcodec, hrst, ofWord_toWord p⟩

/-- In `DONE` and in `STOPPED` no byte is accepted (R34). -/
theorem inReady_of_held {s : State} (hst : s.st = .done ∨ s.st = .stopped) : s.inReady = false := by
  rcases hst with hst | hst <;> simp [State.inReady, hst]

/-- Only in `DONE` does a row look at `frame_ack` (rows 4 and 14 of R62). -/
theorem selects_of_ne_done {s : State} {op : Op} (a : Bool) (hst : s.st ≠ .done) (h : s.Selects op) :
    State.Selects { s with pins := { s.pins with frameAck := a } } op := by
  cases op
  case ack => exact absurd h.2.2 hst
  case nop =>
    obtain ⟨hrst, hstopped | ⟨hdone, -⟩ | hidle⟩ := h
    · exact ⟨hrst, .inl hstopped⟩
    · exact absurd hdone hst
    · exact ⟨hrst, .inr (.inr hidle)⟩
  case reset | endClean | endMalformed => exact h
  case huntDiscard | byteSync | byteSel | byteLenShort | byteLenEsc | byteExth | byteExtl | byteBody | byteCk => exact h

/-- In `DONE` and `STOPPED` no row looks at `src_end` (rows 2 and 3 of R62 are those of the other states). -/
theorem selects_of_held {s : State} {op : Op} (e : Bool) (hst : s.st = .done ∨ s.st = .stopped) (h : s.Selects op) :
    State.Selects { s with pins := { s.pins with srcEnd := e } } op := by
  have hop := not_mem_byteOps_of_not_inReady (inReady_of_held hst) h
  cases op
  case reset | ack => exact h
  case endClean | endMalformed => rcases hst with hst | hst <;> simp [State.Selects, hst] at h
  case nop =>
    obtain ⟨hrst, hstopped | hdone | ⟨hrec, -, -⟩⟩ := h
    · exact ⟨hrst, .inl hstopped⟩
    · exact ⟨hrst, .inr (.inl hdone)⟩
    · rcases hst with hst | hst <;> simp [hst] at hrec
  case huntDiscard | byteSync | byteSel | byteLenShort | byteLenEsc | byteExth | byteExtl | byteBody | byteCk =>
    exact absurd (by decide) hop

/-- Settles O42: in each case the same row is selected, and it reads none of the changed pins. -/
theorem ignoredInputs : Obligations.IgnoredInputs :=
  ⟨fun _ a hst => sameEffect_step_of_selects (fun _ h => selects_of_ne_done a hst h) fun _ _ =>
      sameEffect_exec_of_same_operands ..,
    fun _ v d hst => sameEffect_step_of_not_inReady v d (inReady_of_held hst),
    fun _ e hst => sameEffect_step_of_selects (fun _ h => selects_of_held e hst h) fun _ _ =>
      sameEffect_exec_of_same_operands ..⟩

/-! ### The length bytes (R56, R41) -/

/-- The byte at index `i`, 0x00 standing for an unwritten one, as in `State.bufferBytes`. -/
def Memory.byteAt (m : Memory) (i : Nat) : Byte := (m.read i).getD 0x00#8

theorem Memory.byteAt_of_read {m : Memory} {i : Nat} {d : Byte} (h : m.read i = some d) : m.byteAt i = d := by
  rw [Memory.byteAt, h, Option.getD_some]

theorem Memory.byteAt_write_same (m : Memory) (i : Nat) (d : Byte) : (m.write i d).byteAt i = d :=
  byteAt_of_read (m.read_write_same i d)

theorem Memory.byteAt_write_other (m : Memory) {i j : Nat} (d : Byte) (h : j ≠ i) :
    (m.write i d).byteAt j = m.byteAt j := by
  rw [Memory.byteAt, m.read_write_other d h, Memory.byteAt]

theorem bufferBytes_getD (s : State) {i n : Nat} (h : i < n) : (s.bufferBytes n).getD i 0x00#8 = s.fb.byteAt i := by
  simp [State.bufferBytes, Memory.byteAt, h]

/-- The length registers are those that the bytes at indices 2 to 4 declare. -/
def State.LengthBytes (s : State) : Prop :=
  s.ext = isEscape (s.fb.byteAt 2) ∧
    s.plen = if s.ext then s.fb.byteAt 3 ++ s.fb.byteAt 4 else shortLength (s.fb.byteAt 2)

/-- Once the whole header is counted, the frame's first bytes declare what the bytes at indices 2 to 4 do. -/
theorem lengthBytes_iff {s : State} {n : Nat} (h : headerSize s.ext ≤ n) :
    s.LengthBytes ↔ s.ext = isExtended (s.bufferBytes n) ∧ s.plen = declaredLength (s.bufferBytes n) := by
  have hthree : 3 ≤ headerSize s.ext := by cases s.ext <;> decide
  have hext : isExtended (s.bufferBytes n) = isEscape (s.fb.byteAt 2) := by
    rw [isExtended, bufferBytes_getD s (by omega), isEscape]
  unfold State.LengthBytes declaredLength
  rw [hext, bufferBytes_getD s (i := 2) (by omega)]
  refine and_congr_right fun hesc => ?_
  rw [← hesc]
  cases he : s.ext
  case false => rfl
  case true =>
    have hfive : 5 ≤ n := by simpa [he, headerSize] using h
    rw [bufferBytes_getD s (i := 3) (by omega), bufferBytes_getD s (i := 4) (by omega)]
    rfl

/-- What does not touch the header's bytes or the length registers keeps their agreement. -/
theorem State.LengthBytes.of_same {s u : State} (hs : s.LengthBytes) (hext : u.ext = s.ext) (hplen : u.plen = s.plen)
    (hfb : ∀ i < headerSize s.ext, u.fb.byteAt i = s.fb.byteAt i) : u.LengthBytes := by
  have hthree : 3 ≤ headerSize s.ext := by cases s.ext <;> decide
  obtain ⟨hesc, hlen⟩ := hs
  unfold State.LengthBytes
  rw [hext, hplen, hfb 2 (by omega)]
  refine ⟨hesc, hlen.trans ?_⟩
  cases he : s.ext
  case false => rfl
  case true => rw [hfb 3 (by simp [he, headerSize]), hfb 4 (by simp [he, headerSize])]

/-- In `BODY` and `DONE` the whole header is counted. -/
theorem State.Framed.headerSize_le_idx {s : State} (hf : s.Framed) (hst : s.st = .body ∨ s.st = .done) :
    headerSize s.ext ≤ s.idx.toNat := by
  rcases hst with hst | hst
  · obtain ⟨-, hrem, hend⟩ := hf.body hst
    unfold State.declaredEnd at hend
    omega
  · obtain ⟨-, hend⟩ := hf.done hst
    unfold State.declaredEnd at hend
    omega

/-- A byte of `BODY` is stored past the header, so it leaves the length bytes. -/
theorem State.LengthHeld.known_of_bodyByte {s u : State} {d : Byte} (hl : s.LengthHeld) (hf : s.Framed)
    (hst : s.st = .body) (hext : u.ext = s.ext) (hplen : u.plen = s.plen) (hidx : u.idx = s.idx + 1#17)
    (hfb : u.fb = s.fb.write s.idx.toNat d) :
    u.ext = isExtended (u.bufferBytes u.idx.toNat) ∧ u.plen = declaredLength (u.bufferBytes u.idx.toNat) := by
  have hhead := hf.headerSize_le_idx (.inl hst)
  have hs := (lengthBytes_iff hhead).2 (hl.known (.inl hst))
  refine (lengthBytes_iff ?_).1 (hs.of_same hext hplen fun j hj => ?_)
  · rw [hext, hidx, hf.idx_succ_toNat hst]
    omega
  · rw [hfb, Memory.byteAt_write_other _ _ (by omega)]

/-- Every operation keeps the length fields of the buffer and of the registers in agreement. -/
theorem State.LengthHeld.of_exec {i : Instr} {s u : State} (hl : s.LengthHeld) (hf : s.Framed) (hi : s.Selects i.op)
    (hu : exec i s = .next u) : u.LengthHeld := by
  cases i
  case reset => cases hu; constructor <;> simp
  case endClean | endMalformed | ack => cases hu; constructor <;> simp
  case huntDiscard | nop => cases hu; exact hl
  case byteSync => cases execByteSync_next hu; constructor <;> simp
  case byteSel => cases execByteSel_next hu; constructor <;> simp
  case byteLenShort =>
    obtain ⟨-, -, hesc⟩ := hi
    cases execByteLenShort_next hu
    refine ⟨nofun, nofun, fun _ => (lengthBytes_iff (by simp [headerSize])).1 ⟨?_, ?_⟩⟩
    · rw [Memory.byteAt_write_same, hesc]
    · rw [Memory.byteAt_write_same]; rfl
  case byteLenEsc =>
    cases execByteLenEsc_next hu
    exact ⟨fun _ => Memory.read_write_same .., nofun, by simp⟩
  case byteExth =>
    obtain ⟨-, hst⟩ := hi
    have htwo := hl.exth hst
    cases execByteExth_next hu
    refine ⟨nofun, fun _ => ⟨?_, ?_⟩, by simp⟩
    · rwa [Memory.read_write_other _ _ (by decide)]
    · rw [Memory.read_write_same, withHighByte_high]
  case byteExtl =>
    obtain ⟨-, hst⟩ := hi
    obtain ⟨htwo, hthree⟩ := hl.extl hst
    obtain ⟨-, hext⟩ := hf.extl hst
    cases execByteExtl_next hu
    refine ⟨nofun, nofun, fun _ => (lengthBytes_iff (by simp [headerSize, hext])).1 ⟨?_, ?_⟩⟩
    · rw [Memory.byteAt_write_other _ _ (by decide), Memory.byteAt_of_read htwo, hext]; rfl
    · simp only [hext, ↓reduceIte]
      rw [Memory.byteAt_write_same, Memory.byteAt_write_other _ _ (by decide), Memory.byteAt_of_read hthree]
      rfl
  case byteBody =>
    obtain ⟨-, hst, -⟩ := hi
    cases execByteBody_next hu
    exact ⟨by simp [hst], by simp [hst], fun _ => hl.known_of_bodyByte hf hst rfl rfl rfl rfl⟩
  case byteCk =>
    obtain ⟨-, hst, -⟩ := hi
    cases execByteCk_next hu
    exact ⟨nofun, nofun, fun _ => hl.known_of_bodyByte hf hst rfl rfl rfl rfl⟩

/-- Every step of a framed state keeps them. -/
theorem State.LengthHeld.of_step {s t : State} (hl : s.LengthHeld) (hf : s.Framed) (h : step s = .next t) :
    t.LengthHeld := by
  obtain ⟨i, u, hi, hu, rfl⟩ := step_runs h
  obtain ⟨hexth, hextl, hknown⟩ := hl.of_exec hf (runs_iff_selects.1 hi) hu
  exact ⟨hexth, hextl, hknown⟩

theorem Reachable.lengthHeld {s : State} (hs : Reachable s) : s.LengthHeld :=
  (hs.of_invariant (P := fun s => s.Assembling ∧ s.LengthHeld)
    (fun h p q => ⟨(Reachable.start h p q).assembling, (invariantHoldsAtReset h p q).held⟩)
    fun _ _ ⟨ha, hl⟩ ht => ⟨ha.of_step ht, hl.of_step ha.framed ht⟩).2

/-- Two bytes side by side are big-endian (R56). -/
theorem append_toNat (a b : Byte) : (a ++ b : Length).toNat = 256 * a.toNat + b.toNat := by
  rw [BitVec.toNat_append, ← Nat.shiftLeft_add_eq_or_of_lt b.isLt, Nat.shiftLeft_eq, Nat.mul_comm]

/-- Settles O31: the length bytes are below `idx`, so they have been written. -/
theorem heldLengthIsBigEndian : Obligations.HeldLengthIsBigEndian := by
  intro s hs hst
  obtain ⟨hframed, -, hwritten⟩ := hs.assembling
  have hhead := hframed.headerSize_le_idx hst
  have hthree : 3 ≤ headerSize s.ext := by cases s.ext <;> decide
  have hread (i : Nat) (hi : i < headerSize s.ext) : s.fb.read i = some (s.fb.byteAt i) := by
    obtain ⟨b, hb⟩ := Option.isSome_iff_exists.1 (hwritten i (by omega))
    rw [hb, Memory.byteAt_of_read hb]
  obtain ⟨hext, hplen⟩ := (lengthBytes_iff hhead).2 (hs.lengthHeld.known hst)
  refine ⟨s.fb.byteAt 2, hread 2 (by omega), hext.trans (beq_eq_decide ..), fun he => ⟨?_, ?_⟩, fun he => ⟨?_, ?_⟩⟩
  · rw [hplen, he, if_neg Bool.false_ne_true, shortLength_toNat]
  · rw [State.bodyOff, he]; rfl
  · rw [State.bodyOff, he]; rfl
  · refine ⟨s.fb.byteAt 3, s.fb.byteAt 4, hread 3 (by simp [he, headerSize]), hread 4 (by simp [he, headerSize]), ?_⟩
    rw [hplen, he, if_pos rfl, append_toNat]

/-! ### The frames of a stimulus script (R65) -/

theorem sumMod256_append (xs ys : List Byte) : sumMod256 (xs ++ ys) = sumMod256 xs + sumMod256 ys := by
  rw [sumMod256, List.map_append, List.sum_append, BitVec.ofNat_add, sumMod256, sumMod256]

theorem sumMod256_singleton (d : Byte) : sumMod256 [d] = d := by simp [sumMod256]

/-- The reference reads a stream as one whole frame where it has the length that its own header declares (R71). -/
theorem assemble_of_length (k : Bool) {d : List Byte} (hlen : d.length = frameLength d) :
    assemble k (d.map (codecIf k)) = .frame d (checksumOf d == 0x00#8) [] := by
  have hdecoded : (d.map (codecIf k)).map (codecIf k) = d := by
    rw [List.map_map]
    exact List.map_id'' (codecIf_codecIf k) d
  have hsize : headerSize (isExtended d) < d.length := by rw [hlen, frameLength]; omega
  have hthree : 3 ≤ headerSize (isExtended d) := by cases isExtended d <;> decide
  have hshort : ¬(isExtended d && decide (d.length < 5)) = true := fun h => by
    rw [Bool.and_eq_true, decide_eq_true_iff] at h
    rw [h.1] at hsize
    exact absurd hsize (by simp only [headerSize, ↓reduceIte]; omega)
  unfold assemble
  simp only [hdecoded, List.length_map]
  rw [if_neg (by omega), if_neg (by omega), if_neg hshort, if_neg (by omega), ← hlen, List.take_length,
    List.drop_eq_nil_of_le (by simp)]

/-- The parts of a header of R65: its size is the one of its form, and it declares the body's length. -/
theorem frameHeader_spec (extended : Bool) (sel : Byte) {body : List Byte} (hbody : body.length ≤ 65535)
    (rest : List Byte) :
    let d := frameHeader extended sel body ++ rest
    (frameHeader extended sel body).length = headerSize (isExtended d) ∧ (declaredLength d).toNat = body.length := by
  unfold frameHeader
  split_ifs with hshort
  · have hlen : 1 ≤ body.length ∧ body.length ≤ 255 := by
      rw [Bool.and_eq_true, decide_eq_true_iff] at hshort
      exact hshort.2
    have hn : (BitVec.ofNat 8 body.length).toNat = body.length := by
      rw [BitVec.toNat_ofNat, Nat.mod_eq_of_lt (by omega)]
    have hne : BitVec.ofNat 8 body.length ≠ 0x00#8 := fun h0 => by
      rw [h0, BitVec.toNat_zero] at hn
      omega
    have hext : isExtended ([Config.syncValue, sel, BitVec.ofNat 8 body.length] ++ rest) = false := by
      simpa [isExtended] using hne
    refine ⟨by rw [hext]; rfl, ?_⟩
    rw [declaredLength, hext]
    exact (shortLength_toNat _).trans hn
  · refine ⟨rfl, ?_⟩
    have hl : declaredLength ([Config.syncValue, sel, 0x00#8, (BitVec.ofNat 16 body.length).extractLsb' 8 8,
        (BitVec.ofNat 16 body.length).extractLsb' 0 8] ++ rest) = BitVec.ofNat 16 body.length := append_high_low _
    rw [hl, BitVec.toNat_ofNat, Nat.mod_eq_of_lt (by omega)]

/-- Every header begins with the SYNC byte and the selector; the rest are the length bytes. -/
theorem exists_frameHeader_eq (extended : Bool) (sel : Byte) (body : List Byte) :
    ∃ lengthBytes, frameHeader extended sel body = Config.syncValue :: sel :: lengthBytes := by
  unfold frameHeader
  split_ifs <;> exact ⟨_, rfl⟩

/-- The summed bytes before the last cancel the checksum byte that R65 gives them, before `flip` is XORed into it. -/
theorem checksumOf_frameImage (extended : Bool) (sel : Byte) (body : List Byte) (flip : Byte) :
    ∃ cs, checksumOf (frameImage extended sel body flip) = -cs + (cs ^^^ flip) := by
  obtain ⟨lengthBytes, hhdr⟩ := exists_frameHeader_eq extended sel body
  refine ⟨0x00#8 - (sumMod256 lengthBytes + sumMod256 body), ?_⟩
  simp only [frameImage, hhdr, checksumOf, List.cons_append, List.drop_succ_cons, List.drop_zero, sumMod256_append,
    sumMod256_singleton]
  simp

/-- So the sum is 0 exactly where nothing is flipped. -/
theorem checksum_verdict (cs flip : Byte) : (-cs + (cs ^^^ flip) == 0x00#8) = (flip == 0x00#8) := by
  have hsum : -cs + (cs ^^^ flip) = 0x00#8 ↔ cs = cs ^^^ flip := neg_add_eq_zero
  have hflip : cs = cs ^^^ flip ↔ 0x00#8 = flip := by
    rw [← BitVec.xor_right_inj (x := 0x00#8) cs, BitVec.xor_zero]
  rw [Bool.eq_iff_iff, beq_iff_eq, beq_iff_eq, hsum, hflip, eq_comm]

/-- The reference reads an image as one whole frame, valid exactly where nothing is flipped. -/
theorem assemble_frameImage (k extended : Bool) (sel : Byte) {body : List Byte} (flip : Byte)
    (hbody : body.length ≤ 65535) :
    assemble k ((frameImage extended sel body flip).map (codecIf k)) =
      .frame (frameImage extended sel body flip) (flip == 0x00#8) [] := by
  obtain ⟨cs, hcs⟩ := checksumOf_frameImage extended sel body flip
  obtain ⟨rest, himg, hrest⟩ : ∃ rest, frameImage extended sel body flip = frameHeader extended sel body ++ rest ∧
      rest.length = body.length + 1 := ⟨_, List.append_assoc .., by simp⟩
  obtain ⟨hhead, hdecl⟩ := frameHeader_spec extended sel hbody rest
  have hlen : (frameImage extended sel body flip).length = frameLength (frameImage extended sel body flip) := by
    rw [frameLength, himg, List.length_append, hhead, hdecl, hrest, Nat.add_assoc]
  rw [assemble_of_length k hlen, hcs, checksum_verdict]

/-- Settles O53: `FRAME` and `FRAMEX` flip no bit of the checksum byte, `FRAMEBAD` its bit 0. -/
theorem scriptFramesAreFrames : Obligations.ScriptFramesAreFrames := by
  intro k extended sel body hbody
  refine ⟨assemble_frameImage k extended sel 0x00#8 hbody, assemble_frameImage k extended sel 0x01#8 hbody, ?_⟩
  obtain ⟨lengthBytes, hhdr⟩ := exists_frameHeader_eq extended sel body
  simp [frameImage, hhdr, Config.syncValue]

end Sys2Proof.Machine
end

section
/-! PROOFS. The statements of 40_codec.md: the codec on its own (R66, R67), the codec flag of each state and its latch
(R68), and the bytes of a frame, each decoded once (R69, R70). -/

namespace Sys2Proof.Machine

/-! ### The codec (R66, R67) -/

theorem codec_codec (x : Byte) : codec (codec x) = x := codecIf_codecIf true x

/-- R67: a fixed point would make the key 0. -/
theorem codec_ne_self (x : Byte) : codec x ≠ x := fun h => by
  have hkey : Config.key = 0x00#8 := (BitVec.xor_right_inj x).1 (h.trans BitVec.xor_zero.symm)
  exact absurd hkey (by decide)

theorem codecAll_codecAll (xs : List Byte) : codecAll (codecAll xs) = xs := by
  rw [codecAll, codecAll, List.map_map]
  exact List.map_id'' codec_codec xs

theorem codecAll_getD {xs : List Byte} {i : Nat} (hi : i < xs.length) :
    (codecAll xs).getD i 0x00#8 = codec (xs.getD i 0x00#8) := by
  simp [codecAll, hi]

/-- Settles O46: the involution on a byte gives the one on a sequence. -/
theorem codecIsSelfInverse : Obligations.CodecIsSelfInverse :=
  ⟨fun x => ⟨rfl, codec_codec x, codec_ne_self x⟩,
    fun xs => ⟨codecAll_codecAll xs, List.length_map _, fun _ hi => codecAll_getD hi⟩, by decide⟩

/-! ### The codec flag and its latch (R68) -/

/-- Only `RESET` and `BYTE_SYNC` write the codec flag. -/
theorem exec_keeps_cx {i : Instr} {s u : State} (hu : exec i s = .next u) (hreset : i.op ≠ .reset)
    (hsync : i.op ≠ .byteSync) : u.cx = s.cx := by
  cases i
  case reset => exact absurd rfl hreset
  case byteSync => exact absurd rfl hsync
  case endClean | endMalformed | ack | huntDiscard | nop => cases hu; rfl
  case byteSel => cases execByteSel_next hu; rfl
  case byteLenShort => cases execByteLenShort_next hu; rfl
  case byteLenEsc => cases execByteLenEsc_next hu; rfl
  case byteExth => cases execByteExth_next hu; rfl
  case byteExtl => cases execByteExtl_next hu; rfl
  case byteBody => cases execByteBody_next hu; rfl
  case byteCk => cases execByteCk_next hu; rfl

/-- A step of any other operation keeps the codec flag. -/
theorem step_keeps_cx {s t : State} (h : step s = .next t) (hreset : ¬s.runs .reset) (hsync : ¬s.runs .byteSync) :
    t.cx = s.cx := by
  obtain ⟨i, u, hi, hu, rfl⟩ := step_runs h
  rw [clocked_cx, exec_keeps_cx hu (fun hop => hreset (hop ▸ hi)) (fun hop => hsync (hop ▸ hi))]

/-- The flag after a step, by the operation that runs. -/
theorem step_cx {s t : State} (h : step s = .next t) :
    t.cx = if s.runs .byteSync then s.pins.codecEn else if s.runs .reset then false else s.cx := by
  split_ifs with hsync hreset
  · rw [step_of_runs_byteSync hsync h]; rfl
  · rw [step_of_runs_reset hreset h]; rfl
  · exact step_keeps_cx h hreset hsync

/-- Only in `IDLE` does a row look at a byte decoded under `codec_en` (rows 5 and 6 of R62). -/
theorem selects_of_ne_idle {s : State} {op : Op} (c : Bool) (hst : s.st ≠ .idle) (h : s.Selects op) :
    State.Selects { s with pins := { s.pins with codecEn := c } } op := by
  cases op
  case huntDiscard | byteSync => exact absurd h.2.1 hst
  case reset | endClean | endMalformed | ack | nop => exact h
  case byteSel | byteLenShort | byteLenEsc | byteExth | byteExtl | byteBody | byteCk => exact h

/-- Of the operations only `BYTE_SYNC` reads `codec_en`. -/
theorem sameEffect_exec_codecEn {i : Instr} (s : State) (c : Bool) (hsync : i.op ≠ .byteSync) :
    sameEffect (exec i s) (exec i { s with pins := { s.pins with codecEn := c } }) := by
  cases i
  case byteSync => exact absurd rfl hsync
  case reset | endClean | endMalformed | ack | huntDiscard | nop => exact rfl
  case byteSel | byteLenShort | byteLenEsc | byteExth | byteExtl => exact rfl
  case byteBody | byteCk => exact sameEffect_memWrite _ _ rfl rfl

/-- `BYTE_SYNC` runs in `IDLE` only. -/
theorem not_selects_byteSync_of_ne_idle {s : State} (hst : s.st ≠ .idle) : ¬s.Selects .byteSync :=
  fun ⟨_, hidle, _⟩ => hst hidle

/-- Settles O41: the operand, the latch, and the operations that run outside `IDLE`. -/
theorem codecFlagLatched : Obligations.CodecFlagLatched :=
  ⟨fun _ => (unmasked_eq_codecIf ..).symm, fun _ _ h => step_cx h,
    fun s c hst => sameEffect_step_of_selects (fun _ h => selects_of_ne_idle c hst h) fun _ hi =>
      sameEffect_exec_codecEn s c fun hop => not_selects_byteSync_of_ne_idle hst (hop ▸ hi)⟩

/-! ### The bytes of a frame, each decoded once (R69, R70) -/

/-- A byte operation outside `IDLE` counts its byte and stays outside `IDLE`: in the header R81 gives the count. -/
theorem exec_counts_byte {i : Instr} {s u : State} (hf : s.Framed) (hi : s.Selects i.op) (hop : i.op ∈ byteOps)
    (hst : s.st ≠ .idle) (hu : exec i s = .next u) : u.st ≠ .idle ∧ u.idx.toNat = s.idx.toNat + 1 := by
  cases i
  case reset | endClean | endMalformed | ack | nop => exact absurd hop (by simp [byteOps, Instr.op])
  case huntDiscard | byteSync => exact absurd hi.2.1 hst
  case byteSel => cases execByteSel_next hu; simp [hf.sel hi.2]
  case byteLenShort => cases execByteLenShort_next hu; simp [hf.len hi.2.1]
  case byteLenEsc => cases execByteLenEsc_next hu; simp [hf.len hi.2.1]
  case byteExth => cases execByteExth_next hu; simp [(hf.exth hi.2).1]
  case byteExtl => cases execByteExtl_next hu; simp [(hf.extl hi.2).1]
  case byteBody => cases execByteBody_next hu; exact ⟨hst, hf.idx_succ_toNat hi.2.1⟩
  case byteCk => cases execByteCk_next hu; exact ⟨nofun, hf.idx_succ_toNat hi.2.1⟩

theorem step_counts_byte {s t : State} (hf : s.Framed) (ha : s.accepts = true) (hst : s.st ≠ .idle)
    (h : step s = .next t) : t.st ≠ .idle ∧ t.idx.toNat = s.idx.toNat + 1 := by
  obtain ⟨i, u, hi, hu, rfl⟩ := step_runs h
  have hsel := runs_iff_selects.1 hi
  have hop : i.op ∈ byteOps := by
    rw [← priorityOp_of_selects hsel, priorityOp_of_accepts ha]
    exact byteOp_mem_byteOps (accepts_iff.1 ha).2.1
  rw [clocked_st, clocked_idx]
  exact exec_counts_byte hf hsel hop hst hu

/-- A cycle of `Accepted` that takes no byte runs `NOP` (R93). -/
theorem step_of_gap {s t : State} (hrst : s.pins.rst = false) (hend : s.pins.srcEnd = false)
    (ha : s.accepts = false) (hack : ¬(s.st = .done ∧ s.pins.frameAck = true)) (h : step s = .next t) :
    t = s.clocked s := by
  refine step_of_runs_nop (runs_iff_selects.2 ⟨hrst, ?_⟩) h
  by_cases hstopped : s.st = .stopped
  · exact .inl hstopped
  by_cases hdone : s.st = .done
  · exact .inr (.inl ⟨hdone, by simpa [hdone] using hack⟩)
  have hrec : s.st.receiving = true := (St.receiving_iff _).2 ⟨hstopped, hdone⟩
  exact .inr (.inr ⟨hrec, hend, by simpa [State.accepts, State.inReady, hrec, hrst, hend] using ha⟩)

/-- Inside a frame the FSR holds the wire bytes `w` under the codec flag `k`: each at its index, decoded once. -/
structure State.Holds (k : Bool) (w : List Byte) (s : State) : Prop where
  inFrame : s.st ≠ .idle
  assembling : s.Assembling
  count : s.idx.toNat = w.length
  flag : s.cx = k
  bytes : ∀ i < w.length, s.fb.read i = some (codecIf k (w.getD i 0x00#8))

/-- The next cycle's pins are no part of what is held. -/
theorem State.Holds.clocked {k : Bool} {w : List Byte} {s : State} (hs : s.Holds k w) :
    (s.clocked s).Holds k w := by
  obtain ⟨hin, ⟨hframed, hfresh, hwritten⟩, hcount, hflag, hbytes⟩ := hs
  exact ⟨hin, ⟨{ hframed with }, { hfresh with }, hwritten⟩, hcount, hflag, hbytes⟩

/-- A byte written at the first index not counted extends the bytes that are read back by that byte. -/
theorem Memory.read_write_append {m : Memory} {w : List Byte} {f : Byte → Byte} {d : Byte}
    (h : ∀ i < w.length, m.read i = some (f (w.getD i 0x00#8))) :
    ∀ i < (w ++ [d]).length, (m.write w.length (f d)).read i = some (f ((w ++ [d]).getD i 0x00#8)) := by
  intro i hi
  rw [Memory.read_write]
  split_ifs with hlast
  · simp [hlast]
  · have hlt : i < w.length := by simp at hi; omega
    rw [h i hlt, List.getD_append _ _ _ _ hlt]

/-- Each further byte is decoded once, under the latched flag, and held at the index it is counted at. -/
theorem State.Holds.of_byte {k : Bool} {w : List Byte} {s t : State} (hs : s.Holds k w) (ha : s.accepts = true)
    (h : step s = .next t) : t.Holds k (w ++ [s.pins.inData]) := by
  obtain ⟨hin, hasm, hcount, hflag, hbytes⟩ := hs
  have hreset : ¬s.runs .reset := fun hr => by
    have hrst : s.pins.rst = true := runs_iff_selects.1 hr
    simp [(accepts_iff.1 ha).2.2.1] at hrst
  have hsync : ¬s.runs .byteSync := fun hr => not_selects_byteSync_of_ne_idle hin (runs_iff_selects.1 hr)
  have hdrop : ¬s.runs .huntDiscard := fun hr => hin (runs_iff_selects.1 hr).2.1
  have hfb : t.fb = s.fb.write w.length (codecIf k s.pins.inData) := by
    rw [step_stores_byte hasm.framed ha hdrop h, if_neg hin, hcount, decodedByte_of_ne_idle hin, State.frameByte, hflag]
  obtain ⟨hin', hcount'⟩ := step_counts_byte hasm.framed ha hin h
  refine ⟨hin', hasm.of_step h, by rw [hcount', hcount, List.length_append]; rfl, ?_, ?_⟩
  · rw [step_keeps_cx h hreset hsync, hflag]
  · rw [hfb]
    exact Memory.read_write_append hbytes

/-- Inside a frame what is accepted is held after what is held already. -/
theorem State.Holds.of_accepted {k : Bool} {s u : State} {w : List Byte} (h : Accepted k s w u) :
    ∀ {v : List Byte}, s.Holds k v → u.Holds k (v ++ w) := by
  induction h with
  | here s => intro v hs; rwa [List.append_nil]
  | gap hrst hend ha hack ht _ ih =>
    intro v hs
    obtain rfl := step_of_gap hrst hend ha hack ht
    exact ih hs.clocked
  | byte _ _ ha _ ht _ ih =>
    intro v hs
    rw [List.append_cons]
    exact ih (hs.of_byte ha ht)

/-- `BYTE_SYNC` decodes a frame's first byte under `codec_en` and latches that flag for the others. -/
theorem holds_of_byteSync {s t : State} (hr : s.runs .byteSync) (h : step s = .next t) :
    t.Holds s.pins.codecEn [s.pins.inData] := by
  obtain rfl := step_of_runs_byteSync hr h
  have hfirst (i : Nat) (hi : i < 1) : (s.fb.write 0 s.boundaryByte).read i = some s.boundaryByte := by
    rw [Nat.lt_one_iff.1 hi, Memory.read_write_same]
  refine ⟨nofun, ⟨?_, ?_, fun i hi => by rw [clocked_fb, hfirst i hi]; rfl⟩, rfl, rfl, fun i hi => ?_⟩
  · constructor <;> simp
  · constructor <;> simp
  · rw [clocked_fb, hfirst i hi, Nat.lt_one_iff.1 hi]
    rfl

/-- A frame accepted from `IDLE` on is held; the cycles before its first byte change no register. -/
theorem holds_of_accepted {k : Bool} {s u : State} {w : List Byte} (h : Accepted k s w u) {b : Byte} {rest : List Byte}
    (hw : w = b :: rest) (hst : s.st = .idle) (hsync : s.hunt = true → codecIf k b = Config.syncValue) :
    u.Holds k w := by
  induction h with
  | here s => cases hw
  | gap hrst hend ha hack ht _ ih =>
    obtain rfl := step_of_gap hrst hend ha hack ht
    exact ih hw hst hsync
  | byte _ _ ha hk ht hrest _ =>
    obtain ⟨rfl, rfl⟩ := List.cons_eq_cons.1 hw
    obtain rfl := hk hst
    have hsel : State.Selects _ .byteSync := ⟨ha, hst, fun hhunt => (isSync_iff _).2 (hsync hhunt)⟩
    exact .of_accepted hrest (holds_of_byteSync (runs_iff_selects.2 hsel) ht)

/-- R70: a byte held under the flag is the wire byte under the codec again. -/
theorem State.Holds.wireByte {k : Bool} {w : List Byte} {s : State} (hs : s.Holds k w) {i : Nat} (hi : i < w.length) :
    s.wireByte i = .byte (w.getD i 0x00#8) := by
  have hbound : w.length ≤ Config.fbDepth := hs.count ▸ hs.assembling.framed.bound
  rw [State.wireByte, memRead_eq_byte.2 ⟨hi.trans_le hbound, hs.bytes i hi⟩, hs.flag]
  exact congrArg Readout.byte (codecIf_codecIf ..)

/-- Settles O49: what is held after the bytes are accepted, and its bytes under the codec again. -/
theorem everyByteDecodedOnce : Obligations.EveryByteDecodedOnce := by
  intro k s u w b rest hst hw hsync h
  have hu := holds_of_accepted h hw hst fun hhunt => (unmasked_eq_codecIf k b).symm.trans (hsync hhunt)
  refine ⟨hu.count, hu.flag, fun i hi => ⟨?_, hu.wireByte hi⟩⟩
  rw [unmasked_eq_codecIf]
  exact hu.bytes i hi

end Sys2Proof.Machine
end

section
/-! PROOFS. The statements of 41_assembly.md: the invariant that every step keeps (R81), the nine byte operations (R72
to R80), the length of a frame (R83) and the assembly as the reference function gives it (R71, R82). -/

namespace Sys2Proof.Machine

/-! ### The invariant (R81, R84, R56, R28, R29) -/

/-- Every operation keeps the canonical form of the buffer: a store that answers is at an index that exists. -/
theorem wf_of_exec {i : Instr} {s u : State} (hm : Memory.wf s.fb) (hu : exec i s = .next u) : Memory.wf u.fb := by
  cases i
  case reset => cases hu; exact Memory.wf_nil
  case endClean | endMalformed | ack | huntDiscard | nop => cases hu; exact hm
  case byteSync | byteSel | byteLenShort | byteLenEsc | byteExth | byteExtl =>
    rw [exec_fb hu]
    exact Memory.wf_write _ (by decide) hm
  case byteBody | byteCk =>
    obtain ⟨hi, rfl⟩ := memWrite_next hu
    exact Memory.wf_write _ hi hm

@[simp] theorem length_bufferBytes (s : State) (n : Nat) : (s.bufferBytes n).length = n := by simp [State.bufferBytes]

/-- A store right after the first `n` bytes appends to them. -/
theorem bufferBytes_succ_of_store {s u : State} {n : Nat} {d : Byte} (hfb : u.fb = s.fb.write n d) :
    u.bufferBytes (n + 1) = s.bufferBytes n ++ [d] := by
  unfold State.bufferBytes
  rw [List.range_succ, List.map_append, hfb, List.map_singleton, Memory.read_write_same, Option.getD_some]
  refine congrArg (· ++ [d]) (List.map_congr_left fun i hi => ?_)
  rw [Memory.read_write_other _ _ (List.mem_range.1 hi).ne]

theorem three_le_headerSize (ext : Bool) : 3 ≤ headerSize ext := by cases ext <;> decide

/-- Up to the selector nothing is summed (R58). -/
theorem checksumOf_of_length_le {bs : List Byte} (h : bs.length ≤ 2) : checksumOf bs = 0x00#8 := by
  rw [checksumOf, List.drop_eq_nil_of_le h]
  rfl

/-- From index 2 on each byte adds to the sum (R58, R84). -/
theorem checksumOf_append_singleton {bs : List Byte} (d : Byte) (h : 2 ≤ bs.length) :
    checksumOf (bs ++ [d]) = checksumOf bs + d := by
  rw [checksumOf, List.drop_append_of_le_length h, sumMod256_append, sumMod256_singleton, checksumOf]

/-- The sum of R84 goes on where a byte from index 2 on is stored at the first index not counted and added to it. -/
theorem sum_of_store {s u : State} {n : Nat} {d : Byte} (hsum : s.acc = checksumOf (s.bufferBytes n)) (hn : 2 ≤ n)
    (hfb : u.fb = s.fb.write n d) (hidx : u.idx.toNat = n + 1) (hacc : u.acc = s.acc + d) :
    u.acc = checksumOf (u.bufferBytes u.idx.toNat) := by
  rw [hidx, bufferBytes_succ_of_store hfb, checksumOf_append_singleton d (by simpa using hn), hacc, hsum]

/-- Every operation keeps the written bytes and their sum: `acc` gains each byte that is stored from index 2 on. -/
theorem State.Summed.of_exec {i : Instr} {s u : State} (hs : s.Summed) (hf : s.Framed) (hi : s.Selects i.op)
    (hu : exec i s = .next u) : u.Summed := by
  refine ⟨State.Written.of_exec hs.written hf hi hu, ?_⟩
  have hsum := hs.sum
  cases i
  case reset => cases hu; rfl
  case endClean | endMalformed | ack | huntDiscard | nop => cases hu; exact hsum
  case byteSync => cases execByteSync_next hu; exact (checksumOf_of_length_le (by simp)).symm
  case byteSel =>
    rw [hf.sel hi.2, checksumOf_of_length_le (by simp)] at hsum
    cases execByteSel_next hu
    exact hsum.trans (checksumOf_of_length_le (by simp)).symm
  case byteLenShort =>
    rw [hf.len hi.2.1] at hsum
    cases execByteLenShort_next hu
    exact sum_of_store hsum le_rfl rfl rfl rfl
  case byteLenEsc =>
    rw [hf.len hi.2.1] at hsum
    cases execByteLenEsc_next hu
    exact sum_of_store hsum le_rfl rfl rfl rfl
  case byteExth =>
    rw [(hf.exth hi.2).1] at hsum
    cases execByteExth_next hu
    exact sum_of_store hsum (by decide) rfl rfl rfl
  case byteExtl =>
    rw [(hf.extl hi.2).1] at hsum
    cases execByteExtl_next hu
    exact sum_of_store hsum (by decide) rfl rfl rfl
  case byteBody | byteCk =>
    obtain ⟨-, hst, -⟩ := hi
    have hhead := hf.headerSize_le_idx (.inl hst)
    have hthree := three_le_headerSize s.ext
    obtain ⟨-, rfl⟩ := memWrite_next hu
    exact sum_of_store hsum (by omega) rfl (hf.idx_succ_toNat hst) rfl

/-- Every step of a framed state keeps them. -/
theorem State.Summed.of_step {s t : State} (hs : s.Summed) (hf : s.Framed) (h : step s = .next t) : t.Summed := by
  obtain ⟨i, u, hi, hu, rfl⟩ := step_runs h
  obtain ⟨hwritten, hsum⟩ := hs.of_exec hf (runs_iff_selects.1 hi) hu
  exact ⟨hwritten, hsum⟩

theorem wf_of_step {s t : State} (hm : Memory.wf s.fb) (h : step s = .next t) : Memory.wf t.fb := by
  obtain ⟨i, u, -, hu, rfl⟩ := step_runs h
  rw [clocked_fb]
  exact wf_of_exec hm hu

/-- Settles O27: each part is kept by every operation, most of them with the help of R81. -/
theorem invariantKeptByStep : Obligations.InvariantKeptByStep := by
  intro s t hs h
  have hasm : s.Assembling := ⟨hs.framed, hs.fresh, hs.summed.written⟩
  obtain ⟨hframed, hfresh, -⟩ := hasm.of_step h
  exact
    { memory := wf_of_step hs.memory h
      framed := hframed
      fresh := hfresh
      summed := hs.summed.of_step hs.framed h
      held := hs.held.of_step hs.framed h
      trapped := hs.trapped.of_step h }

theorem Reachable.inv {s : State} (hs : Reachable s) : s.Inv :=
  hs.of_invariant invariantHoldsAtReset invariantKeptByStep

/-- Settles O29: the clauses of R81 in the invariant. -/
theorem reachableStatesAreFramed : Obligations.ReachableStatesAreFramed := by
  intro s hs
  obtain ⟨hsel, hlen, hexth, hextl, hbody, hdone, hbound⟩ := hs.inv.framed
  exact ⟨hsel, hlen, hexth, hextl, hbody, hdone, hbound⟩

/-! ### The byte operations (R72 to R80) -/

/-- The operand of R72 and R73. -/
theorem unmasked_codecEn (s : State) : unmasked s.pins.codecEn s.pins.inData = s.boundaryByte := unmasked_eq_codecIf ..

/-- The operand of R74 to R80. -/
theorem unmasked_cx (s : State) : unmasked s.cx s.pins.inData = s.frameByte := unmasked_eq_codecIf ..

/-- The cycles of one receiving state that accept their byte, with the further condition of their row. -/
theorem accepts_and_iff {s : State} {st : St} {P Q : Prop} (hrec : st.receiving = true) (hPQ : P ↔ Q) :
    s.accepts = true ∧ s.st = st ∧ P ↔
      s.pins.rst = false ∧ s.pins.srcEnd = false ∧ s.pins.inValid = true ∧ s.st = st ∧ Q := by
  rw [accepts_iff, hPQ]
  constructor
  · rintro ⟨⟨hvalid, -, hrst, hend⟩, hst, hQ⟩
    exact ⟨hrst, hend, hvalid, hst, hQ⟩
  · rintro ⟨hrst, hend, hvalid, hst, hQ⟩
    exact ⟨⟨hvalid, hst ▸ hrec, hrst, hend⟩, hst, hQ⟩

/-- A row that looks at the state alone. -/
theorem accepts_and_st_iff {s : State} {st : St} (hrec : st.receiving = true) :
    s.accepts = true ∧ s.st = st ↔
      s.pins.rst = false ∧ s.pins.srcEnd = false ∧ s.pins.inValid = true ∧ s.st = st := by
  simpa only [and_true] using accepts_and_iff (P := True) hrec Iff.rfl

/-- The store of an operation: what it answers, and the byte it leaves at its index. -/
theorem exists_memWrite_storedAt (s t : State) {i : Nat} (d : Byte) (hi : i < Config.fbDepth) :
    ∃ fb', memWrite s i d t = .next { t with fb := fb' } ∧ storedAt s.fb fb' i d :=
  ⟨_, memWrite_of_lt hi, storedAt_write ..⟩

/-- Settles O8: the byte leaves the state as it is. -/
theorem huntDiscardOperation : Obligations.HuntDiscardOperation := by
  refine ⟨rfl, fun s => ?_, fun _ _ _ _ => rfl, fun s h => (runs_iff_selects.1 h).1⟩
  rw [runs_iff_selects, unmasked_codecEn]
  exact accepts_and_iff St.receiving_idle (and_congr_right' (isSync_eq_false_iff _))

/-- Settles O9: the byte is stored at index 0, and in `IDLE` the exception registers are clear. -/
theorem byteSyncOperation : Obligations.ByteSyncOperation := by
  refine ⟨rfl, fun s => ?_, fun _ _ _ _ _ s => ?_, fun s hs hruns => ?_⟩
  · rw [runs_iff_selects, unmasked_codecEn]
    exact accepts_and_iff St.receiving_idle (imp_congr_right fun _ => isSync_iff _)
  · rw [unmasked_codecEn, ← beq_eq_decide]
    exact exists_memWrite_storedAt s _ _ (i := 0) (by decide)
  · obtain ⟨-, hst, -⟩ := runs_iff_selects.1 hruns
    have hm : s.malformed = false := by
      by_contra hm
      have hstopped := (hs.trapped.stopped (by simpa using hm)).1
      simp [hst] at hstopped
    exact ⟨hm, by rw [hs.trapped.clear hm]; rfl⟩

/-- Settles O10: the byte is stored at index 1. -/
theorem byteSelOperation : Obligations.ByteSelOperation := by
  refine ⟨rfl, fun s => ?_, fun _ _ _ _ _ s => ?_⟩
  · exact runs_iff_selects.trans (accepts_and_st_iff St.receiving_sel)
  · rw [unmasked_cx]
    exact exists_memWrite_storedAt s _ _ (i := 1) (by decide)

/-- Settles O11: the byte is stored at index 2, and until then nothing is summed. -/
theorem byteLenShortOperation : Obligations.ByteLenShortOperation := by
  refine ⟨rfl, fun s => ?_, fun _ _ _ _ s => ?_, fun s hs hst => ?_⟩
  · rw [runs_iff_selects, unmasked_cx]
    exact accepts_and_iff St.receiving_len (isEscape_eq_false_iff _)
  · rw [unmasked_cx]
    obtain ⟨fb', hexec, hstored⟩ := exists_memWrite_storedAt s _ s.frameByte (i := 2) (by decide)
    exact ⟨fb', _, _, hexec, by simp, by simp, hstored⟩
  · rw [hs.inv.summed.sum, hs.inv.framed.len hst, checksumOf_of_length_le (by simp)]

/-- The escape adds 0 to the sum (R76). -/
theorem execByteLenEsc_eq (s : State) :
    execByteLenEsc s = memWrite s 2 0x00#8 { s with idx := 3#17, ext := true, st := .exth } := by
  have hacc : accUpdate s.acc 0x00#8 = s.acc := BitVec.add_zero _
  rw [execByteLenEsc, hacc]

/-- Settles O12: the escape is stored at index 2, and `plen` waits for `EXT_LEN`. -/
theorem byteLenEscOperation : Obligations.ByteLenEscOperation := by
  refine ⟨rfl, fun s => ?_, fun _ _ _ _ s => ?_, fun s hs hst => ?_⟩
  · rw [runs_iff_selects, unmasked_cx]
    exact accepts_and_iff St.receiving_len (isEscape_iff _)
  · rw [exec, execByteLenEsc_eq]
    exact exists_memWrite_storedAt s _ _ (i := 2) (by decide)
  · rcases hst with hst | hst | hst
    · exact (hs.inv.fresh.sel hst).1
    · exact hs.inv.fresh.len hst
    · exact BitVec.eq_of_toNat_eq (hs.inv.framed.exth hst).2.2

/-- Settles O13: the byte is stored at index 3, above the low byte that `BYTE_SYNC` cleared. -/
theorem byteExthOperation : Obligations.ByteExthOperation := by
  refine ⟨rfl, fun s => ?_, fun _ _ _ _ _ s => ?_, fun s hs hst => ?_⟩
  · exact runs_iff_selects.trans (accepts_and_st_iff St.receiving_exth)
  · rw [unmasked_cx]
    obtain ⟨fb', hexec, hstored⟩ := exists_memWrite_storedAt s _ s.frameByte (i := 3) (by decide)
    exact ⟨fb', _, hexec, withHighByte_high .., withHighByte_low .., hstored⟩
  · obtain ⟨-, -, hplen⟩ := hs.inv.framed.exth hst
    rw [BitVec.eq_of_toNat_eq (y := 0x0000#16) hplen]
    rfl

/-- Settles O14: the byte is stored at index 4, below the high byte in place. -/
theorem byteExtlOperation : Obligations.ByteExtlOperation := by
  refine ⟨rfl, fun s => ?_, fun _ _ _ _ _ s => ?_⟩
  · exact runs_iff_selects.trans (accepts_and_st_iff St.receiving_extl)
  · rw [unmasked_cx]
    obtain ⟨fb', hexec, hstored⟩ := exists_memWrite_storedAt s _ s.frameByte (i := 4) (by decide)
    exact ⟨fb', _, _, hexec, withLowByte_high .., withLowByte_low .., remainingAfter_toNat _, hstored⟩

/-- Settles O15: the byte is stored at `idx`, and where it is not the last, another one still fits (R81). -/
theorem byteBodyOperation : Obligations.ByteBodyOperation := by
  refine ⟨rfl, fun s => ?_, fun _ _ _ _ s hidx => ?_, fun s hs hruns => ?_⟩
  · exact runs_iff_selects.trans (accepts_and_iff St.receiving_body beq_eq_false_iff_ne)
  · rw [unmasked_cx]
    exact exists_memWrite_storedAt s _ _ hidx
  · obtain ⟨-, hst, hlast⟩ := runs_iff_selects.1 hruns
    obtain ⟨hrem, -, hend⟩ := hs.inv.framed.body hst
    have hne : s.rem.toNat ≠ 1 := by simpa [hlast] using lastByte_iff (s := s)
    have hfit := declaredEnd_le_fbDepth s
    unfold Config.fbDepth at hfit
    omega

/-- In `DONE` a cycle without a reset or an acknowledge changes no register. -/
theorem step_of_done {s : State} (hst : s.st = .done) (hack : s.pins.frameAck = false) (hrst : s.pins.rst = false) :
    step s = .next (s.clocked s) :=
  step_of_runs (i := .nop false false false false 0 false false false false)
    (runs_iff_selects.2 ⟨hrst, .inr (.inl ⟨hst, hack⟩)⟩)

theorem accepts_of_done {s : State} (hst : s.st = .done) : s.accepts = false := by
  rw [State.accepts, inReady_of_held (.inl hst), Bool.and_false]

/-- Settles O16: the byte is stored at `idx`, the declared end less one (R81), and the frame is held in `DONE`. -/
theorem byteCkOperation : Obligations.ByteCkOperation := by
  refine ⟨rfl, fun s => ?_, fun _ _ _ _ s hidx => ?_, fun s t hruns h => ?_, fun s hs hruns => ?_, fun s hst => ?_⟩
  · exact runs_iff_selects.trans (accepts_and_iff St.receiving_body beq_iff_eq)
  · rw [unmasked_cx]
    exact exists_memWrite_storedAt s _ _ hidx
  · obtain ⟨u, hu, rfl⟩ := step_next_of_runs (i := .byteCk false false false false) hruns h
    cases execByteCk_next hu
    rw [unmasked_cx]
    exact ⟨rfl, beq_eq_decide ..⟩
  · obtain ⟨-, hst, hlast⟩ := runs_iff_selects.1 hruns
    refine ⟨hs.inv.framed.idx_lt_fbDepth hst, fun hext hplen => ?_⟩
    obtain ⟨-, -, hend⟩ := hs.inv.framed.body hst
    rw [lastByte_iff.1 hlast, State.declaredEnd, hext, hplen] at hend
    exact Nat.succ.inj hend
  · exact ⟨accepts_of_done hst, fun hack hrst => step_of_done hst hack hrst⟩

/-! ### The length of a frame (R57, R71, R83) -/

/-- A form without the escape declares at least one body byte. -/
theorem five_le_frameLength (d : List Byte) : 5 ≤ frameLength d := by
  unfold frameLength declaredLength
  cases hext : isExtended d
  case true => simp only [headerSize, ↓reduceIte]; omega
  case false =>
    have hne : (d.getD 2 0x00#8).toNat ≠ 0 := fun h => by
      have hzero : d.getD 2 0x00#8 = 0x00#8 := BitVec.eq_of_toNat_eq h
      rw [isExtended, hzero] at hext
      cases hext
    have hlen : (shortLength (d.getD 2 0x00#8)).toNat = (d.getD 2 0x00#8).toNat := shortLength_toNat _
    simp only [shortLength] at hlen
    simp only [headerSize, Bool.false_eq_true, ↓reduceIte, hlen]
    omega

/-- Every frame is longer than its header. -/
theorem headerSize_lt_frameLength (d : List Byte) : headerSize (isExtended d) < frameLength d := by
  unfold frameLength
  omega

/-- The bytes of the header declare the length. -/
theorem frameLength_congr {d d' : List Byte}
    (h : ∀ i < headerSize (isExtended d), d'.getD i 0x00#8 = d.getD i 0x00#8) : frameLength d' = frameLength d := by
  have hthree := three_le_headerSize (isExtended d)
  have hext : isExtended d' = isExtended d := by rw [isExtended, h 2 (by omega), isExtended]
  have hlen : declaredLength d' = declaredLength d := by
    unfold declaredLength
    rw [hext, h 2 (by omega)]
    cases he : isExtended d
    case false => rfl
    case true => rw [h 3 (by simp [he, headerSize]), h 4 (by simp [he, headerSize])]
  rw [frameLength, hext, hlen, frameLength]

/-- A frame declares its own length. -/
theorem frameLength_take (d : List Byte) : frameLength (d.take (frameLength d)) = frameLength d :=
  frameLength_congr fun i hi => by
    have hlt : i < frameLength d := hi.trans (headerSize_lt_frameLength d)
    simp [List.getD_eq_getElem?_getD, hlt]

/-- What follows a frame does not change its length. -/
theorem frameLength_append {d : List Byte} (x : List Byte) (h : frameLength d ≤ d.length) :
    frameLength (d ++ x) = frameLength d :=
  frameLength_congr fun _ hi =>
    List.getD_append _ _ _ _ (hi.trans ((headerSize_lt_frameLength d).trans_le h))

/-- R71: a stream that is shorter than its bytes declare is Malformed; where the length bytes are not in yet, fewer than
five bytes have come. -/
theorem assemble_of_lt {k : Bool} {w : List Byte} (hw : w ≠ [])
    (h : w.length < frameLength (w.map (codecIf k))) : assemble k w = .malformed w.length := by
  have hne : w.length ≠ 0 := fun h0 => hw (List.eq_nil_of_length_eq_zero h0)
  simp [assemble, hne, h]

/-- R71: a stream that holds the declared bytes begins with a frame of them. -/
theorem assemble_of_ge {k : Bool} {w d : List Byte} (hd : w.map (codecIf k) = d) (h : frameLength d ≤ w.length) :
    assemble k w = .frame (d.take (frameLength d)) (checksumOf (d.take (frameLength d)) == 0x00#8)
      (w.drop (frameLength d)) := by
  have hfive := five_le_frameLength d
  have hshort : ¬(isExtended d && decide (w.length < 5)) = true := fun hs => by
    rw [Bool.and_eq_true, decide_eq_true_iff] at hs
    omega
  unfold assemble
  dsimp only
  rw [hd, if_neg (by omega), if_neg (by omega), if_neg hshort, if_neg (by omega)]

/-- What the reference function has read where it returns a frame. -/
theorem of_assemble_eq_frame {k : Bool} {w d bytes rest : List Byte} {ok : Bool} (hd : w.map (codecIf k) = d)
    (h : assemble k w = .frame bytes ok rest) :
    frameLength d ≤ w.length ∧ bytes = d.take (frameLength d) ∧ ok = (checksumOf bytes == 0x00#8) ∧
      rest = w.drop (frameLength d) := by
  have hw : w ≠ [] := by rintro rfl; cases h
  have hge : frameLength d ≤ w.length := by
    by_contra hlt
    rw [assemble_of_lt hw (by rw [hd]; omega)] at h
    cases h
  rw [assemble_of_ge hd hge] at h
  cases h
  exact ⟨hge, rfl, rfl, rfl⟩

/-- The bytes after a frame are left for the next one. -/
theorem assemble_append {k : Bool} {v bytes rest : List Byte} {ok : Bool} (x : List Byte)
    (h : assemble k v = .frame bytes ok rest) : assemble k (v ++ x) = .frame bytes ok (rest ++ x) := by
  obtain ⟨hlen, rfl, rfl, rfl⟩ := of_assemble_eq_frame rfl h
  have hframe : frameLength (v.map (codecIf k) ++ x.map (codecIf k)) = frameLength (v.map (codecIf k)) :=
    frameLength_append _ (by simpa using hlen)
  rw [assemble_of_ge List.map_append (by rw [hframe, List.length_append]; omega), hframe,
    List.take_append_of_le_length (by simpa using hlen), List.drop_append_of_le_length hlen]

/-- In `BODY` and `DONE` the declared end of R81 is the length that the buffer's bytes declare. -/
theorem declaredEnd_eq_frameLength {s : State} (hl : s.LengthHeld) (hst : s.st = .body ∨ s.st = .done) :
    s.declaredEnd = frameLength (s.bufferBytes s.idx.toNat) := by
  obtain ⟨hext, hplen⟩ := hl.known hst
  rw [State.declaredEnd, frameLength, ← hext, ← hplen]

/-- Settles O52: a frame is cut at the length that it declares, and no frame declares fewer than five bytes. -/
theorem framesHaveFiveBytes : Obligations.FramesHaveFiveBytes := by
  refine ⟨fun k w bytes rest ok h => ?_, fun s hs hvalid => ?_, fun k w hlen hw => ?_⟩
  · obtain ⟨hlen, rfl, -, rfl⟩ := of_assemble_eq_frame rfl h
    have hsize : ((w.map (codecIf k)).take (frameLength (w.map (codecIf k)))).length =
        frameLength (w.map (codecIf k)) := by simpa using hlen
    refine ⟨hsize.trans (frameLength_take _).symm, (five_le_frameLength _).trans_eq hsize.symm, ?_⟩
    rw [List.map_drop, List.take_append_drop]
  · have hst : s.st = .done := (deliveryOutputs s).1.1 hvalid
    obtain ⟨-, hend⟩ := hs.inv.framed.done hst
    refine ⟨hend, ?_⟩
    show 5 ≤ s.idx.toNat
    rw [hend, declaredEnd_eq_frameLength hs.inv.held (.inr hst)]
    exact five_le_frameLength _
  · exact assemble_of_lt hw (hlen.trans_le (five_le_frameLength _))

/-! ### A frame under way, and what the reference function makes of its bytes (R71, R82) -/

/-- A frame under way or held: the invariant without the buffer's canonical form and the exception registers, which
play no part in it. `BYTE_SYNC` begins one from any state in `IDLE`. -/
structure State.Underway (s : State) : Prop where
  assembling : s.Assembling
  held : s.LengthHeld
  summed : s.Summed
  live : s.st ≠ .stopped

/-- Only an end of stream stops the block (R90, R91). -/
theorem exec_ne_stopped {i : Instr} {s u : State} (hi : s.Selects i.op) (hend : s.pins.srcEnd = false)
    (hst : s.st ≠ .stopped) (hu : exec i s = .next u) : u.st ≠ .stopped := by
  cases i
  case endClean | endMalformed =>
    obtain ⟨-, hsrc, -⟩ := hi
    rw [hend] at hsrc
    cases hsrc
  case reset | ack => cases hu; exact nofun
  case huntDiscard | nop => cases hu; exact hst
  case byteSync => cases execByteSync_next hu; exact nofun
  case byteSel => cases execByteSel_next hu; exact nofun
  case byteLenShort => cases execByteLenShort_next hu; exact nofun
  case byteLenEsc => cases execByteLenEsc_next hu; exact nofun
  case byteExth => cases execByteExth_next hu; exact nofun
  case byteExtl => cases execByteExtl_next hu; exact nofun
  case byteBody => cases execByteBody_next hu; exact hst
  case byteCk => cases execByteCk_next hu; exact nofun

/-- Every step without an end of stream keeps it. -/
theorem State.Underway.of_step {s t : State} (hs : s.Underway) (hend : s.pins.srcEnd = false)
    (h : step s = .next t) : t.Underway := by
  have hf := hs.assembling.framed
  refine ⟨hs.assembling.of_step h, hs.held.of_step hf h, hs.summed.of_step hf h, ?_⟩
  obtain ⟨i, u, hi, hu, rfl⟩ := step_runs h
  rw [clocked_st]
  exact exec_ne_stopped (runs_iff_selects.1 hi) hend hs.live hu

theorem State.Underway.of_accepted {k : Bool} {s u : State} {w : List Byte} (h : Accepted k s w u)
    (hs : s.Underway) : u.Underway := by
  induction h with
  | here => exact hs
  | gap _ hend _ _ ht _ ih => exact ih (hs.of_step hend ht)
  | byte _ hend _ _ ht _ ih => exact ih (hs.of_step hend ht)

/-- `BYTE_SYNC` writes every register of a frame, so nothing is asked of the state before it. -/
theorem underway_of_byteSync {s t : State} (hr : s.runs .byteSync) (h : step s = .next t) : t.Underway := by
  have hasm := (holds_of_byteSync hr h).assembling
  obtain rfl := step_of_runs_byteSync hr h
  refine ⟨hasm, ?_, ⟨hasm.written, (checksumOf_of_length_le (by simp)).symm⟩, nofun⟩
  constructor <;> simp

/-- The cycles before a frame's first byte keep the state; with `SYNC_HUNT = 0` that byte runs `BYTE_SYNC`. -/
theorem underway_of_accepted {k : Bool} {s u : State} {w : List Byte} (h : Accepted k s w u) (hw : w ≠ [])
    (hst : s.st = .idle) (hhunt : s.hunt = false) : u.Underway := by
  induction h with
  | here => exact absurd rfl hw
  | gap hrst hend ha hack ht _ ih =>
    obtain rfl := step_of_gap hrst hend ha hack ht
    exact ih hw hst hhunt
  | byte _ _ ha _ ht hrest _ =>
    have hsel : State.Selects _ .byteSync := ⟨ha, hst, by simp [hhunt]⟩
    exact .of_accepted hrest (underway_of_byteSync (runs_iff_selects.2 hsel) ht)

/-- Before any byte the FSR stays in `IDLE`. -/
theorem st_of_accepted_nil {k : Bool} {s u : State} {w : List Byte} (h : Accepted k s w u) (hw : w = []) :
    u.st = s.st := by
  induction h with
  | here => rfl
  | gap hrst hend ha hack ht _ ih =>
    obtain rfl := step_of_gap hrst hend ha hack ht
    exact ih hw
  | byte => cases hw

/-- The bytes that are held are the decoded ones. -/
theorem State.Holds.bufferBytes_eq {k : Bool} {w : List Byte} {s : State} (hs : s.Holds k w) :
    s.bufferBytes w.length = w.map (codecIf k) := by
  refine List.ext_getElem (by simp) fun i hi _ => ?_
  have hiw : i < w.length := by simpa using hi
  simp [State.bufferBytes, hs.bytes i hiw, hiw]

/-- R82 in one equation: the frame under way is complete in `DONE` and not before, and its verdict is the
reference's. -/
theorem assemble_of_underway {k : Bool} {w : List Byte} {s : State} (hs : s.Holds k w) (hu : s.Underway)
    (hw : w ≠ []) :
    assemble k w = if s.st = .done then .frame (s.bufferBytes w.length) s.csumOk [] else .malformed w.length := by
  have hf := hu.assembling.framed
  have hbytes := hs.bufferBytes_eq
  have hfive := five_le_frameLength (w.map (codecIf k))
  have hdeclared : s.st = .body ∨ s.st = .done → s.declaredEnd = frameLength (w.map (codecIf k)) := fun hst => by
    rw [declaredEnd_eq_frameLength hu.held hst, hs.count, hbytes]
  cases hst : s.st
  case idle => exact absurd hst hs.inFrame
  case stopped => exact absurd hst hu.live
  case sel => exact assemble_of_lt hw (by have := hf.sel hst; have := hs.count; omega)
  case len => exact assemble_of_lt hw (by have := hf.len hst; have := hs.count; omega)
  case exth => exact assemble_of_lt hw (by have := (hf.exth hst).1; have := hs.count; omega)
  case extl => exact assemble_of_lt hw (by have := (hf.extl hst).1; have := hs.count; omega)
  case body =>
    obtain ⟨hrem, -, hend⟩ := hf.body hst
    rw [hdeclared (.inl hst), hs.count] at hend
    exact assemble_of_lt hw (by omega)
  case done =>
    obtain ⟨-, hend⟩ := hf.done hst
    have hlen : frameLength (w.map (codecIf k)) = w.length := by rw [← hdeclared (.inr hst), ← hend, hs.count]
    have hsum : s.acc = checksumOf (w.map (codecIf k)) := by rw [hu.summed.sum, hs.count, hbytes]
    rw [if_pos rfl, assemble_of_ge rfl hlen.le, hlen, List.take_of_length_le (by simp), List.drop_length, hbytes,
      State.csumOk, hsum]

/-- After some bytes from `IDLE` the FSR holds them, in the state that the reference's answer on them tells. -/
theorem assemble_of_accepted {k : Bool} {s u : State} {w : List Byte} (h : Accepted k s w u) (hw : w ≠ [])
    (hst : s.st = .idle) (hhunt : s.hunt = false) : u.Holds k w ∧ u.Underway ∧
      assemble k w = if u.st = .done then .frame (u.bufferBytes w.length) u.csumOk [] else .malformed w.length := by
  obtain ⟨b, rest, rfl⟩ := List.exists_cons_of_ne_nil hw
  have hholds := holds_of_accepted h rfl hst (by simp [hhunt])
  have hunder := underway_of_accepted h hw hst hhunt
  exact ⟨hholds, hunder, assemble_of_underway hholds hunder hw⟩

/-- After a whole frame the FSR holds it. -/
theorem held_of_frame {k : Bool} {s u : State} {w bytes rest : List Byte} {ok : Bool} (h : Accepted k s w u)
    (hst : s.st = .idle) (hhunt : s.hunt = false) (hframe : assemble k w = .frame bytes ok rest) :
    u.Holds k w ∧ u.st = .done ∧ bytes = u.bufferBytes w.length ∧ ok = u.csumOk ∧ rest = [] := by
  have hw : w ≠ [] := by rintro rfl; cases hframe
  obtain ⟨hholds, -, heq⟩ := assemble_of_accepted h hw hst hhunt
  rw [hframe] at heq
  split_ifs at heq with hdone
  cases heq
  exact ⟨hholds, hdone, rfl, rfl, rfl⟩

/-- Inside a frame the FSR is in a mid-frame state, with the count of the bytes so far. -/
theorem midFrame_of_malformed {k : Bool} {s u : State} {w : List Byte} {m : Nat} (h : Accepted k s w u)
    (hst : s.st = .idle) (hhunt : s.hunt = false) (hmal : assemble k w = .malformed m) :
    u.st.midFrame = true ∧ u.idx.toNat = m := by
  have hw : w ≠ [] := by rintro rfl; cases hmal
  obtain ⟨hholds, hunder, heq⟩ := assemble_of_accepted h hw hst hhunt
  rw [hmal] at heq
  split_ifs at heq with hdone
  cases heq
  refine ⟨?_, hholds.count⟩
  have hin := hholds.inFrame
  have hlive := hunder.live
  cases hu : u.st <;> simp [hu] at hin hlive hdone ⊢

theorem step_eq_raiseMalformed {s : State} (hr : s.runs .endMalformed) :
    step s = .next (s.clocked (raiseMalformed s)) :=
  step_of_runs (i := .endMalformed false false false false 0 false false) hr

/-- Settles O50: the state after a whole frame, inside one and before any byte, and the release of a held one. -/
theorem assemblesAsTheReference : Obligations.AssemblesAsTheReference := by
  refine ⟨fun k s u w bytes rest ok hst hhunt h hframe => ?_, fun k s u w m hst hhunt h hmal hrst hend => ?_,
    fun k s u hst _ h => ⟨rfl, fun hrst hend => ?_⟩, fun s t hst hrst hack h => ?_⟩
  · obtain ⟨hholds, hdone, rfl, rfl, rfl⟩ := held_of_frame h hst hhunt hframe
    rw [length_bufferBytes]
    exact ⟨rfl, hdone, rfl, hholds.count, rfl, accepts_of_done hdone⟩
  · obtain ⟨hmid, hcount⟩ := midFrame_of_malformed h hst hhunt hmal
    have hruns : u.runs .endMalformed := runs_iff_selects.2 ⟨hrst, hend, hmid⟩
    exact ⟨hruns, hcount, _, step_eq_raiseMalformed hruns, rfl, rfl, hcount, rfl⟩
  · exact runs_iff_selects.2 ⟨hrst, hend, (st_of_accepted_nil h rfl).trans hst⟩
  · rw [step_of_runs_ack (runs_iff_selects.2 ⟨hrst, hack, hst⟩) h]
    exact ⟨rfl, rfl⟩

/-! ### A frame offered one byte a cycle (R71, R82, R119) -/

/-- One more byte at the end of what is accepted. -/
theorem Accepted.snoc {k : Bool} {s t u : State} {w : List Byte} (h : Accepted k s w t) (hrst : t.pins.rst = false)
    (hend : t.pins.srcEnd = false) (ha : t.accepts = true) (hk : t.pins.codecEn = k) (ht : step t = .next u) :
    Accepted k s (w ++ [t.pins.inData]) u := by
  induction h with
  | here => exact .byte hrst hend ha (fun _ => hk) ht (.here u)
  | gap hrst' hend' ha' hack' hs _ ih => exact .gap hrst' hend' ha' hack' hs (ih hrst hend ha hk ht)
  | byte hrst' hend' ha' hk' hs _ ih => exact .byte hrst' hend' ha' hk' hs (ih hrst hend ha hk ht)

/-- A step answers wherever a byte of `BODY` would be stored inside the buffer. -/
theorem exists_step_of_idx_lt {s : State} (h : s.st = .body → s.idx.toNat < Config.fbDepth) :
    ∃ t, step s = .next t := by
  obtain ⟨t, ht⟩ := exec_next_of_idx_lt (i := (selectOp s.opWord).readOperands s.opWord) fun hop => by
    rw [op_readOperands] at hop
    exact h (st_eq_body_of_selectOp hop)
  exact ⟨_, step_of_exec_next (decode_opWord s) ht⟩

/-- After some bytes of a frame, but not all of them, the FSR is receiving, and a step answers. -/
theorem receiving_of_accepted_part {k : Bool} {s u : State} {v x bytes : List Byte} {ok : Bool}
    (h : Accepted k s v u) (hst : s.st = .idle) (hhunt : s.hunt = false) (hx : x ≠ [])
    (hframe : assemble k (v ++ x) = .frame bytes ok []) :
    u.st.receiving = true ∧ ∃ t, step u = .next t := by
  by_cases hv : v = []
  · have hidle : u.st = .idle := (st_of_accepted_nil h hv).trans hst
    exact ⟨by rw [hidle]; rfl, exists_step_of_idx_lt (by simp [hidle])⟩
  · obtain ⟨hholds, hunder, heq⟩ := assemble_of_accepted h hv hst hhunt
    refine ⟨(St.receiving_iff _).2 ⟨hunder.live, fun hdone => ?_⟩,
      exists_step_of_idx_lt hunder.assembling.framed.idx_lt_fbDepth⟩
    rw [if_pos hdone] at heq
    rw [assemble_append x heq] at hframe
    cases hframe
    exact hx rfl

section driven
variable (s : State) (ps : List Pins)

@[simp] theorem driven_st : (s.driven ps).st = s.st := by cases ps <;> rfl
@[simp] theorem driven_hunt : (s.driven ps).hunt = s.hunt := by cases ps <;> rfl
@[simp] theorem driven_driven : (s.driven ps).driven ps = s.driven ps := by cases ps <;> rfl
end driven

/-- The next cycle of a driven state has the rest of the levels. -/
theorem driven_of_step {s t : State} {ps : List Pins} (hs : s.stim = ps) (h : step s = .next t) : t.driven ps = t := by
  obtain ⟨u, -, rfl⟩ := step_next h
  subst hs
  cases hstim : s.stim with
  | nil => rfl
  | cons p rest => simp [State.driven, State.clocked, nextPins_cons hstim, hstim]

/-- The FSR accepts each byte of a frame in the cycle that offers it. -/
theorem run_offering {k : Bool} {s : State} {bytes : List Byte} {ok : Bool} (hst : s.st = .idle)
    (hhunt : s.hunt = false) (rest : List Byte) : ∀ {v : List Byte} {t : State}, Accepted k s v t →
      t.driven (offering k rest) = t → assemble k (v ++ rest) = .frame bytes ok [] →
      ∃ u, Sys2Proof.core.run rest.length t = .next u ∧ Accepted k s (v ++ rest) u := by
  induction rest with
  | nil => intro v t h _ _; exact ⟨t, rfl, by rwa [List.append_nil]⟩
  | cons b rest ih =>
    intro v t h hdriven hframe
    obtain ⟨hrec, t', ht'⟩ := receiving_of_accepted_part h hst hhunt (List.cons_ne_nil b rest) hframe
    have hpins : t.pins = { Pins.low with inData := b, inValid := true, codecEn := k } :=
      (congrArg State.pins hdriven).symm
    have hstim : t.stim = offering k rest := (congrArg State.stim hdriven).symm
    have ha : t.accepts = true := accepts_iff.2 ⟨by rw [hpins], hrec, by rw [hpins]; rfl, by rw [hpins]; rfl⟩
    have hsnoc := h.snoc (by rw [hpins]; rfl) (by rw [hpins]; rfl) ha (by rw [hpins]) ht'
    rw [hpins] at hsnoc
    obtain ⟨u, hu, hacc⟩ := ih hsnoc (driven_of_step hstim ht') (by rwa [← List.append_cons])
    exact ⟨u, (run_succ_of_next Sys2Proof.core ht').trans hu, by rwa [← List.append_cons] at hacc⟩

/-- Settles O51: the frame is accepted in as many edges as it has bytes, and held after them. -/
theorem frameHeldAfterItsBytes : Obligations.FrameHeldAfterItsBytes := by
  intro k s w bytes ok hst hhunt hframe
  have hst' : (s.driven (offering k w)).st = .idle := (driven_st ..).trans hst
  have hhunt' : (s.driven (offering k w)).hunt = false := (driven_hunt ..).trans hhunt
  obtain ⟨u, hu, hacc⟩ := run_offering hst' hhunt' w (.here _) (driven_driven ..) hframe
  obtain ⟨hholds, hdone, rfl, rfl, -⟩ := held_of_frame hacc hst' hhunt' hframe
  exact ⟨u, hu, (deliveryOutputs u).1.2 hdone, hholds.count, rfl, rfl, hholds.flag⟩

end Sys2Proof.Machine
end

section
/-! PROOFS. The statements of 42_checksum.md: the running sum `acc` (R84), the verdict that blocks nothing (R86), the
checksum byte and the counters (R87), and the flip of one bit of a summed byte (R88). -/

namespace Sys2Proof.Machine

/-! ### The running sum (R84) -/

/-- The accumulator after each operation, from the registers and pins before it. -/
def State.accAfter (s : State) : Op → Byte
  | .reset | .byteSync => 0x00#8
  | .byteLenShort | .byteLenEsc | .byteExth | .byteExtl | .byteBody | .byteCk => s.acc + s.frameByte
  | .endClean | .endMalformed | .ack | .huntDiscard | .byteSel | .nop => s.acc

/-- `BYTE_LEN_ESC` adds a constant 0x00 (R76), which in its own cycles is the decoded byte. -/
theorem exec_acc {i : Instr} {s u : State} (hi : s.Selects i.op) (hu : exec i s = .next u) :
    u.acc = s.accAfter i.op := by
  cases i
  case reset | endClean | endMalformed | ack | huntDiscard | nop => cases hu; rfl
  case byteSync => cases execByteSync_next hu; rfl
  case byteSel => cases execByteSel_next hu; rfl
  case byteLenShort => cases execByteLenShort_next hu; rfl
  case byteLenEsc =>
    obtain ⟨-, -, hesc⟩ := hi
    cases execByteLenEsc_next hu
    exact congrArg (s.acc + ·) ((isEscape_iff _).1 hesc).symm
  case byteExth => cases execByteExth_next hu; rfl
  case byteExtl => cases execByteExtl_next hu; rfl
  case byteBody => cases execByteBody_next hu; rfl
  case byteCk => cases execByteCk_next hu; rfl

theorem step_acc {s t : State} {op : Op} (hr : s.runs op) (h : step s = .next t) : t.acc = s.accAfter op := by
  obtain ⟨i, u, hi, hu, rfl⟩ := step_runs h
  rw [clocked_acc, exec_acc (runs_iff_selects.1 hi) hu, runs_unique hi hr]

/-- The bytes that `idx` counts are held in every reachable state. -/
theorem Reachable.exists_byte {s : State} (hs : Reachable s) {i : Nat} (hi : i < s.idx.toNat) :
    ∃ b, s.fb.read i = some b := Option.isSome_iff_exists.1 (hs.inv.summed.written i hi)

/-- Settles O30: the update of each operation, and the sum and the written bytes of the invariant. -/
theorem accumulatorIsRunningSum : Obligations.AccumulatorIsRunningSum := by
  refine ⟨fun s t op hr h => ?_, fun s hs => hs.inv.summed.sum, fun s i hs hi => hs.exists_byte hi⟩
  rw [step_acc hr h, unmasked_cx]
  cases op <;> rfl

/-! ### The verdict blocks nothing (R86) -/

/-- A store does not ask for the accumulator: beside register writes that differ in `acc` alone it answers alike. -/
theorem memWrite_with_acc {s t u : State} {i : Nat} {d : Byte} (x y : Byte) (h : memWrite s i d t = .next u) :
    ∃ u', memWrite { s with acc := x } i d { t with acc := y } = .next u' ∧ { u' with acc := u.acc } = u := by
  obtain ⟨hi, rfl⟩ := memWrite_next h
  exact ⟨_, memWrite_of_lt hi, rfl⟩

/-- Every operation does the same for every accumulator, but to the accumulator itself. -/
theorem exec_with_acc {i : Instr} {s u : State} (x : Byte) (hu : exec i s = .next u) :
    ∃ u', exec i { s with acc := x } = .next u' ∧ { u' with acc := u.acc } = u := by
  cases i
  case reset | endClean | endMalformed | ack | huntDiscard | nop => cases hu; exact ⟨_, rfl, rfl⟩
  case byteSync => exact memWrite_with_acc (i := 0) x _ hu
  case byteSel => exact memWrite_with_acc (i := 1) x _ hu
  case byteLenShort | byteLenEsc => exact memWrite_with_acc (i := 2) x _ hu
  case byteExth => exact memWrite_with_acc (i := 3) x _ hu
  case byteExtl => exact memWrite_with_acc (i := 4) x _ hu
  case byteBody | byteCk => exact memWrite_with_acc x _ hu

/-- The accumulator is no part of the decode word, so every value of it selects the same operation. -/
theorem runs_with_acc {s : State} {op : Op} (x : Byte) (h : s.runs op) : State.runs { s with acc := x } op := h

theorem step_with_acc {s t : State} (x : Byte) (h : step s = .next t) :
    ∃ t', step { s with acc := x } = .next t' ∧ { t' with acc := t.acc } = t := by
  obtain ⟨i, u, hi, hu, rfl⟩ := step_runs h
  obtain ⟨u', hu', heq⟩ := exec_with_acc x hu
  refine ⟨State.clocked { s with acc := x } u', ?_, congrArg s.clocked heq⟩
  rw [step_of_runs (runs_with_acc x hi), hu']

/-- A held frame is kept until `frame_ack`, and released by it. -/
theorem step_of_held {s : State} (hst : s.st = .done) (hrst : s.pins.rst = false) :
    step s = .next (s.clocked (if s.pins.frameAck then { s with st := .idle } else s)) := by
  cases hack : s.pins.frameAck
  case true =>
    have hruns : s.runs .ack := runs_iff_selects.2 ⟨hrst, hack, hst⟩
    exact step_of_runs (i := .ack false false false false false false) hruns
  case false => exact step_of_done hst hack hrst

/-- Settles O40: no operation asks for `acc`, no row in `DONE` for the verdict, and `acc` is the sum of the bytes held. -/
theorem verdictNeverBlocks : Obligations.VerdictNeverBlocks := by
  refine ⟨fun s t x h => step_with_acc x h, fun s hvalid _ hrst => ?_, fun s hs _ => ⟨fun i hi => hs.exists_byte hi, ?_⟩⟩
  · exact step_of_held ((deliveryOutputs s).1.1 hvalid) hrst
  · rw [← hs.inv.summed.sum]
    exact beq_eq_decide ..

/-! ### The checksum byte, and the counters (R87) -/

/-- The last byte makes a frame valid exactly where it cancels the sum of the bytes before it. -/
theorem checksumOf_append_eq_zero_iff {d : List Byte} (c : Byte) (hd : 2 ≤ d.length) :
    checksumOf (d ++ [c]) = 0x00#8 ↔ c = 0x00#8 - checksumOf d := by
  rw [checksumOf_append_singleton c hd, BitVec.zero_sub]
  exact add_eq_zero_iff_eq_neg'

/-- R81 keeps `idx` far below the 17 bits' end. -/
theorem State.Framed.idx_succ_no_wrap {s : State} (hf : s.Framed) : (s.idx + 1#17).toNat = s.idx.toNat + 1 := by
  have hbound := hf.bound
  bv_omega

/-- A byte of `BODY` that is not the last one leaves at least one more to come. -/
theorem State.Framed.two_le_rem {s : State} (hf : s.Framed) (hr : s.runs .byteBody) : 2 ≤ s.rem.toNat := by
  obtain ⟨-, hst, hlast⟩ := runs_iff_selects.1 hr
  obtain ⟨hrem, -, -⟩ := hf.body hst
  have hne : s.rem.toNat ≠ 1 := by simpa [hlast] using lastByte_iff (s := s)
  omega

/-- Settles O47: bytes form a group under the sum modulo 256, and R81 bounds `idx` and `rem`. -/
theorem checksumByteUnique : Obligations.ChecksumByteUnique := by
  refine ⟨fun d c hd => checksumOf_append_eq_zero_iff c hd, fun s hs => ⟨hs.inv.framed.idx_succ_no_wrap, fun hr => ?_⟩,
    fun l => ?_⟩
  · have hrem := hs.inv.framed.two_le_rem hr
    exact ⟨hrem, index_pred_toNat (by omega)⟩
  · have hsucc : (l.setWidth 17 + 1#17).toNat = l.toNat + 1 := remainingAfter_toNat l
    exact ⟨hsucc, by omega⟩

/-! ### A flip of one bit (R88) -/

/-- The sum of R13 is the sum in the group of bytes. -/
theorem sumMod256_eq_sum (bs : List Byte) : sumMod256 bs = bs.sum := by
  induction bs with
  | nil => rfl
  | cons b bs ih => rw [← List.singleton_append, sumMod256_append, sumMod256_singleton, ih, List.sum_append,
      List.sum_singleton]

/-- A byte of the checksum range that changes takes the sum along. -/
theorem checksumOf_set {d : List Byte} {i : Nat} (hi : 2 ≤ i) (hlt : i < d.length) (x : Byte) :
    checksumOf (d.set i x) = checksumOf d + (x - d.getD i 0x00#8) := by
  have hin : i - 2 < (d.drop 2).length := by rw [List.length_drop]; omega
  have hget : (d.drop 2)[i - 2] = d.getD i 0x00#8 := by
    rw [List.getElem_drop, List.getD_eq_getElem _ _ hlt]
    congr 1
    omega
  rw [checksumOf, List.drop_set, if_neg (by omega), sumMod256_eq_sum, List.sum_set', dif_pos hin, hget, neg_add_eq_sub,
    checksumOf, sumMod256_eq_sum]

/-- To flip a clear bit is to add its weight. -/
theorem xor_twoPow_of_clear {n : Nat} {x : BitVec n} {j : Nat} (h : x.getLsbD j = false) :
    x ^^^ BitVec.twoPow n j = x + BitVec.twoPow n j := by
  have hdisjoint : x &&& BitVec.twoPow n j = 0#n := by simp [BitVec.and_twoPow, h]
  rw [BitVec.add_eq_or_of_and_eq_zero _ _ hdisjoint]
  refine BitVec.eq_of_getLsbD_eq fun k _ => ?_
  have hbit : (x.getLsbD k && (BitVec.twoPow n j).getLsbD k) = false := by
    rw [← BitVec.getLsbD_and, hdisjoint, BitVec.getLsbD_zero]
  rw [BitVec.getLsbD_xor, BitVec.getLsbD_or]
  cases hx : x.getLsbD k
  case false => rw [Bool.false_xor, Bool.false_or]
  case true => rw [hx, Bool.true_and] at hbit; rw [hbit]; rfl

/-- To flip a set bit is to subtract its weight: flipped once more it is added. -/
theorem xor_twoPow_of_set {n : Nat} {x : BitVec n} {j : Nat} (hj : j < n) (h : x.getLsbD j = true) :
    x ^^^ BitVec.twoPow n j = x - BitVec.twoPow n j := by
  have hclear : (x ^^^ BitVec.twoPow n j).getLsbD j = false := by simp [h, hj]
  have hback := xor_twoPow_of_clear hclear
  rw [BitVec.xor_assoc, BitVec.xor_self, BitVec.xor_zero] at hback
  exact eq_sub_of_add_eq hback.symm

theorem twoPow_ne_zero {n j : Nat} (hj : j < n) : BitVec.twoPow n j ≠ 0#n := fun h => by
  have hbit := congrArg (BitVec.getLsbD · j) h
  simp [hj] at hbit

/-- A flip of bit `j` of a summed byte moves the sum by the bit's weight, up or down. -/
theorem checksumOf_flip {d : List Byte} {i j : Nat} (hi : 2 ≤ i) (hlt : i < d.length) (hj : j < 8) :
    let flipped := d.set i (d.getD i 0x00#8 ^^^ BitVec.twoPow 8 j)
    checksumOf flipped = checksumOf d + BitVec.twoPow 8 j ∨ checksumOf flipped = checksumOf d - BitVec.twoPow 8 j := by
  intro flipped
  have hset := checksumOf_set hi hlt (d.getD i 0x00#8 ^^^ BitVec.twoPow 8 j)
  cases hbit : (d.getD i 0x00#8).getLsbD j
  case false =>
    rw [xor_twoPow_of_clear hbit, add_sub_cancel_left, ← xor_twoPow_of_clear hbit] at hset
    exact .inl hset
  case true =>
    rw [xor_twoPow_of_set hj hbit, sub_sub_cancel_left, ← xor_twoPow_of_set hj hbit, ← sub_eq_add_neg] at hset
    exact .inr hset

/-- Settles O48: the weight of a bit of a byte is not 0 modulo 256. -/
theorem singleBitFlipChangesVerdict : Obligations.SingleBitFlipChangesVerdict := by
  intro d i j hi hlt hj flipped
  have hmove : checksumOf flipped = checksumOf d + (1#8 <<< j) ∨ checksumOf flipped = checksumOf d - (1#8 <<< j) :=
    checksumOf_flip hi hlt hj
  have hweight : 1#8 <<< j ≠ 0x00#8 := twoPow_ne_zero hj
  have hne : checksumOf flipped ≠ checksumOf d := by
    rcases hmove with h | h <;> rw [h]
    · exact add_ne_left.2 hweight
    · exact fun h0 => hweight (sub_eq_self.1 h0)
  refine ⟨hmove, hne, fun hvalid => hvalid ▸ hne, fun hzero => ?_⟩
  rw [hzero] at hmove
  rcases hmove with h | h
  · exact .inr (eq_sub_of_add_eq h.symm)
  · exact .inl (sub_eq_zero.1 h.symm)

end Sys2Proof.Machine
end

section
/-! PROOFS. The statements of 43_control.md: the end of the stream at a frame boundary and inside a frame (R90, R91),
the release of a held frame (R92), and `NOP` with the wait that it makes (R93). -/

namespace Sys2Proof.Machine

/-! ### The end of the stream (R90, R91) -/

theorem step_of_runs_endClean {s t : State} (hr : s.runs .endClean) (h : step s = .next t) :
    t = s.clocked { s with st := .stopped } := by
  obtain ⟨_, ⟨⟩, ht⟩ := step_next_of_runs (i := .endClean false false false false false false) hr h
  exact ht

/-- Only a stopped FSR has raised MalformedFrame (R28). -/
theorem State.Trapped.malformed_eq_false {s : State} (hs : s.Trapped) (hst : s.st ≠ .stopped) :
    s.malformed = false := by
  by_contra hm
  exact hst (hs.stopped (by simpa using hm)).1

/-- R99: a stop without a MalformedFrame is the end of the stream. -/
theorem cause_of_stopped {s : State} (hst : s.st = .stopped) (hm : s.malformed = false) :
    s.cause = .endOfStream := by
  simp [State.cause, State.frameValid, State.isStopped, hst, hm]

/-- While `src_end` is 1 no byte is accepted (R34). -/
theorem accepts_of_srcEnd {s : State} (hend : s.pins.srcEnd = true) : s.accepts = false := by
  simp [State.accepts, State.inReady, hend]

/-- Settles O5: `END_CLEAN` runs in `IDLE`, where `malformed` is clear, and writes `st` alone. -/
theorem endCleanOperation : Obligations.EndCleanOperation := by
  refine ⟨rfl, fun _ => runs_iff_selects, fun _ _ _ _ _ _ _ => rfl, fun s t hs hruns h => ?_,
    fun _ hend => accepts_of_srcEnd hend⟩
  obtain ⟨-, -, hst⟩ := runs_iff_selects.1 hruns
  have hm : s.malformed = false := hs.trapped.malformed_eq_false (by simp [hst])
  obtain rfl := step_of_runs_endClean hruns h
  exact ⟨hm, rfl, cause_of_stopped rfl hm⟩

/-- R81 inside a frame: at least byte 0 is counted, and the frame's last byte is still to come. -/
theorem State.Framed.idx_of_midFrame {s : State} (hf : s.Framed) (hmid : s.st.midFrame = true) :
    1 ≤ s.idx.toNat ∧ s.idx.toNat < Config.fbDepth := by
  have hdepth : Config.fbDepth = 65541 := rfl
  cases hst : s.st
  case idle | stopped | done => simp [hst] at hmid
  case sel => have hidx := hf.sel hst; omega
  case len => have hidx := hf.len hst; omega
  case exth => have hidx := (hf.exth hst).1; omega
  case extl => have hidx := (hf.extl hst).1; omega
  case body =>
    have hhead := three_le_headerSize s.ext
    have hidx := hf.headerSize_le_idx (.inl hst)
    exact ⟨by omega, hf.idx_lt_fbDepth hst⟩

/-- Settles O6: the whole effect is `raiseMalformed`; R81 bounds the bytes of the frame under way, and R84 has them
written. -/
theorem endMalformedOperation : Obligations.EndMalformedOperation := by
  refine ⟨rfl, fun _ => runs_iff_selects, fun _ _ _ _ _ _ _ _ => rfl, fun s t hruns h => ?_, fun s hs hruns => ?_⟩
  · obtain rfl := step_of_runs_endMalformed hruns h
    exact ⟨rfl, rfl, rfl⟩
  · obtain ⟨-, -, hmid⟩ := runs_iff_selects.1 hruns
    obtain ⟨hpos, hlt⟩ := hs.inv.framed.idx_of_midFrame hmid
    exact ⟨hpos, Nat.le_of_lt_succ hlt, fun i hi => hs.exists_byte hi⟩

/-! ### The release of a held frame (R92) -/

/-- Settles O7: `ACK` leaves `IDLE`, where the held `src_end` selects `END_CLEAN`. -/
theorem ackOperation : Obligations.AckOperation := by
  obtain ⟨hignored, -, -⟩ := ignoredInputs
  refine ⟨rfl, fun _ => runs_iff_selects, fun _ _ _ _ _ _ _ => rfl, fun _ hst => accepts_of_done hst,
    fun s t hruns h => ?_, hignored⟩
  obtain rfl := step_of_runs_ack hruns h
  exact ⟨rfl, fun hend hrst => runs_iff_selects.2 ⟨hrst, hend, rfl⟩⟩

/-! ### Waiting (R93) -/

/-- A `NOP` cycle always answers, and only the inputs move on. -/
theorem step_eq_of_runs_nop {s : State} (hr : s.runs .nop) : step s = .next (s.clocked s) :=
  step_of_runs (i := .nop false false false false 0 false false false false) hr

/-- Settles O17: the cycles that rows 1 to 13 leave, with R34's receiving states by their encoding. -/
theorem nopOperation : Obligations.NopOperation := by
  refine ⟨rfl, fun s => ?_, fun _ _ _ _ _ _ _ _ _ _ => rfl, fun _ hruns => step_eq_of_runs_nop hruns⟩
  rw [runs_iff_selects, ← receiving_iff_code]
  exact Iff.rfl

/-- With no reset, end of stream, acknowledge or byte the cycle is a `NOP` in every state. -/
theorem runs_nop_of_nothing_offered {s : State} (hrst : s.pins.rst = false) (hend : s.pins.srcEnd = false)
    (hack : s.pins.frameAck = false) (hvalid : s.pins.inValid = false) : s.runs .nop := by
  refine runs_iff_selects.2 ⟨hrst, ?_⟩
  by_cases hstopped : s.st = .stopped
  · exact .inl hstopped
  by_cases hdone : s.st = .done
  · exact .inr (.inl ⟨hdone, hack⟩)
  · exact .inr (.inr ⟨(St.receiving_iff _).2 ⟨hstopped, hdone⟩, hend, hvalid⟩)

/-- The outside that offers nothing keeps on offering nothing (log 2). -/
theorem hold_of_nothing_offered (c a : Bool) (r : Index) :
    Pins.hold { Pins.low with codecEn := c, raddr := r } a = { Pins.low with codecEn := c, raddr := r } := rfl

/-- With the levels used up and nothing offered, one edge changes not even the inputs. -/
theorem step_eq_self {s : State} (hstim : s.stim = [])
    (hpins : s.pins = { Pins.low with codecEn := s.pins.codecEn, raddr := s.pins.raddr }) : step s = .next s := by
  have hruns : s.runs .nop := runs_nop_of_nothing_offered (congrArg Pins.rst hpins) (congrArg Pins.srcEnd hpins)
    (congrArg Pins.frameAck hpins) (congrArg Pins.inValid hpins)
  have hnext : s.nextPins = s.pins := by rw [nextPins_nil hstim, hpins, hold_of_nothing_offered]
  rw [step_eq_of_runs_nop hruns, State.clocked, hnext, hstim, List.tail_nil, ← hstim]

/-- Settles O56, by induction on the number of edges. -/
theorem waitsWithoutTimeout : Obligations.WaitsWithoutTimeout := by
  intro s n hstim hpins
  induction n with
  | zero => rfl
  | succ n ih => exact (run_succ_of_next Sys2Proof.core (step_eq_self hstim hpins)).trans ih

end Sys2Proof.Machine
end

section
/-! PROOFS. The statements of 60_exceptions.md: the `cause` output (R99), the levels and what clears them (R100), the
priority of simultaneous inputs (R101), `STOPPED` until reset (R103) and the isolation of the FSRs (R107). -/

namespace Sys2Proof.Machine

/-! ### The isolation of the FSRs of a platform (R107) -/

/-- An edge of one FSR is its own step, written back to its own place. -/
theorem Platform.stepAt_eq_next_iff {n : Nat} {p q : Platform n} {i : Fin n} :
    p.stepAt i = .next q ↔ ∃ t, step p[i] = .next t ∧ q = p.set i t := by
  unfold Platform.stepAt
  cases step p[i] <;> simp [eq_comm]

theorem Platform.getElem_set_of_ne {n : Nat} (p : Platform n) (t : State) {i j : Fin n} (h : j ≠ i) :
    (p.set i t)[j] = p[j] :=
  Vector.getElem_set_ne i.isLt j.isLt (Fin.val_ne_of_ne h.symm)

/-- Settles O54: an edge reads and writes one place of the vector, and writes to different places commute. -/
theorem pipelinesAreIsolated : Obligations.PipelinesAreIsolated := by
  intro n p q i h
  obtain ⟨t, ht, rfl⟩ := Platform.stepAt_eq_next_iff.1 h
  have hown (p' : Platform n) : (p'.set i t)[i] = t := Vector.getElem_set_self i.isLt
  refine ⟨⟨by rw [hown, ht], fun j hj => p.getElem_set_of_ne t hj⟩, fun p' hp' => ?_, fun j r hj hr => ?_⟩
  · exact ⟨p'.set i t, Platform.stepAt_eq_next_iff.2 ⟨t, by rw [hp', ht], rfl⟩, by rw [hown, hown]⟩
  · obtain ⟨u, hu, rfl⟩ := Platform.stepAt_eq_next_iff.1 hr
    rw [p.getElem_set_of_ne t hj] at hu
    have hi : step (p.set j u)[i] = .next t := by rw [p.getElem_set_of_ne u hj.symm, ht]
    have hcomm : (p.set i t).set j u = (p.set j u).set i t := Vector.set_comm t u (Fin.val_ne_of_ne hj.symm)
    exact ⟨p.set j u, Platform.stepAt_eq_next_iff.2 ⟨u, hu, rfl⟩, Platform.stepAt_eq_next_iff.2 ⟨t, hi, hcomm⟩⟩

/-! ### The priority of simultaneous inputs (R101) -/

/-- While `rst` is 1 no byte is accepted (R34). -/
theorem accepts_of_rst {s : State} (hrst : s.pins.rst = true) : s.accepts = false := by
  simp [State.accepts, State.inReady, hrst]

/-- Settles O20: the rows of R62 are in R101's order, and `in_ready` is 0 while `src_end` or `rst` is 1. -/
theorem priorityOfInputs : Obligations.PriorityOfInputs :=
  ⟨fun _ => runs_iff_priorityOp.2 rfl, fun _ => accepts_of_srcEnd, fun _ => accepts_of_rst,
    fun _ hrst hend hmid => runs_iff_selects.2 ⟨hrst, hend, hmid⟩⟩

/-! ### The levels and what clears them (R100) -/

/-- In `DONE` only `RESET`, `ACK` and `NOP` run (R48, R92). -/
theorem op_of_done {s : State} {op : Op} (hst : s.st = .done) (h : s.runs op) :
    op = .reset ∨ op = .ack ∨ op = .nop := by
  rw [runs_iff_priorityOp] at h
  subst h
  simp only [State.priorityOp, hst]
  by_cases hrst : s.pins.rst = true <;> by_cases hack : s.pins.frameAck = true <;> simp [hrst, hack]

/-- A held frame is left by `ACK` or `RESET` alone. -/
theorem step_leaves_done_iff {s t : State} (hst : s.st = .done) (h : step s = .next t) :
    t.st ≠ .done ↔ s.runs .ack ∨ s.runs .reset := by
  refine ⟨fun hleft => ?_, fun hop => ?_⟩
  · obtain ⟨i, _, hruns, -, -⟩ := step_runs h
    rcases op_of_done hst hruns with hop | hop | hop <;> rw [hop] at hruns
    · exact .inr hruns
    · exact .inl hruns
    · rw [step_of_runs_nop hruns h] at hleft
      exact absurd hst hleft
  · rcases hop with hruns | hruns
    · simp [step_of_runs_ack hruns h]
    · simp [step_of_runs_reset hruns h]

/-- `STOPPED` is left by `RESET` alone (R103). -/
theorem step_leaves_stopped_iff {s t : State} (hst : s.st = .stopped) (h : step s = .next t) :
    t.st ≠ .stopped ↔ s.runs .reset := by
  refine ⟨fun hleft => ?_, fun hruns => by simp [step_of_runs_reset hruns h]⟩
  obtain ⟨i, _, hruns, -, -⟩ := step_runs h
  rcases op_of_stopped hst hruns with hop | hop <;> rw [hop] at hruns
  · exact hruns
  · rw [step_of_runs_nop hruns h] at hleft
    exact absurd hst hleft

/-- `malformed`, once set, is cleared by `RESET` alone (R28). -/
theorem step_clears_malformed_iff {s t : State} (hm : s.malformed = true) (h : step s = .next t) :
    t.malformed = false ↔ s.runs .reset := by
  refine ⟨fun hclear => ?_, fun hruns => by simp [step_of_runs_reset hruns h]⟩
  by_contra hreset
  obtain ⟨hwriters, -⟩ := malformedIsSticky
  obtain ⟨hset, -⟩ := hwriters s t h
  simp [hset.2 (.inr ⟨hm, hreset⟩)] at hclear

theorem out_frameValid_iff (s : State) : s.out.frameValid = true ↔ s.st = .done :=
  (deliveryOutputs s).1

theorem out_stopped_iff (s : State) : s.out.stopped = true ↔ s.st = .stopped :=
  (deliveryOutputs s).2.1

/-- Settles O33: each level is one state or one flag, left or cleared by the operations above. -/
theorem levelsClearedOnlyBy : Obligations.LevelsClearedOnlyBy := by
  refine ⟨fun s => Bool.eq_iff_iff.2 (bne_iff_ne.trans decide_eq_true_iff.symm),
    fun s t h => ⟨fun hvalid => ?_, fun hstop => ?_, fun hm => step_clears_malformed_iff hm h⟩⟩
  · rw [← step_leaves_done_iff ((out_frameValid_iff s).1 hvalid) h, ← Bool.not_eq_true, out_frameValid_iff]
  · rw [← step_leaves_stopped_iff ((out_stopped_iff s).1 hstop) h, ← Bool.not_eq_true, out_stopped_iff]

/-! ### The cause output (R99) -/

/-- R99's cascade, over the registers. -/
theorem cause_eq (s : State) :
    s.cause =
      if s.malformed = true then .malformedFrame
      else if s.st = .done ∧ s.acc ≠ 0x00#8 then .checksumMismatch
      else if s.st = .stopped then .endOfStream
      else .none := by
  simp [State.cause, State.frameValid, State.csumOk, State.isStopped]

/-- Settles O35: each branch of R99 gives its own code, and none of them gives 3 or 4. -/
theorem causeOutput : Obligations.CauseOutput := by
  intro s
  have hcode : s.out.cause = s.cause.code := rfl
  rw [hcode, cause_eq]
  split_ifs
  all_goals exact ⟨rfl, by decide, by decide⟩

/-! ### `STOPPED` until reset (R103) -/

/-- A `RESET` cycle always answers, with the registers of R33. -/
theorem step_eq_of_runs_reset {s : State} (hr : s.runs .reset) : step s = .next (s.clocked (resetRegisters s)) :=
  step_of_runs (i := .reset false false false false 0 false false false) hr

/-- Settles O44: in `STOPPED` a cycle is a `NOP` without `rst` and a `RESET` with it. -/
theorem stoppedUntilReset : Obligations.StoppedUntilReset :=
  ⟨fun _ hst hrst => step_eq_of_runs_nop (runs_iff_selects.2 ⟨hrst, .inl hst⟩),
    fun _ _ hrst => ⟨_, step_eq_of_runs_reset (runs_iff_selects.2 hrst), rfl, rfl, rfl⟩⟩

end Sys2Proof.Machine
end

section
/-! PROOFS. The statements of 70_reset_and_hazards.md: `RESET` (R110), and the obligations of the source where no later
levels are given (R114, R116). -/

namespace Sys2Proof.Machine

/-! ### The held levels (R114, R116; log 2) -/

/-- R116: `src_end` falls with a reset only, whether or not a byte was accepted. -/
theorem endHeld_hold (p : Pins) (accepted : Bool) : endHeld p (p.hold accepted) := fun hend hrst _ => by
  simp [Pins.hold, hend, hrst]

/-- R114: a byte that was not accepted stays on the lines. -/
theorem byteHeld_hold (s : State) : byteHeld s (s.pins.hold s.accepts) := fun hvalid ha => by
  simp [Pins.hold, hvalid, ha]

/-- Settles O55: with `stim` empty the next levels are the held ones. -/
theorem heldPinsObeyTheSource : Obligations.HeldPinsObeyTheSource := fun s hstim => by
  rw [State.sourceObeys, nextPins_nil hstim]
  exact ⟨endHeld_hold s.pins s.accepts, byteHeld_hold s⟩

/-! ### Reset (R110) -/

/-- A reset of a state that holds the reset values changes only what the inputs change. -/
theorem sameRegisters_resetRegisters (s : State) :
    sameRegisters (resetRegisters s) (resetRegisters (s.clocked (resetRegisters s))) := rfl

/-- A second cycle of `rst` leaves the registers and the buffer of the first. -/
theorem sameRegisters_of_reset_twice {s t u : State} (hs : s.runs .reset) (ht : step s = .next t) (htr : t.runs .reset)
    (hu : step t = .next u) : sameRegisters t u := by
  obtain rfl := step_of_runs_reset hs ht
  obtain rfl := step_of_runs_reset htr hu
  exact sameRegisters_clocked _ _ (sameRegisters_resetRegisters s)

/-- `STATUS` after a reset is that of R33's state, since it reads neither `SYNC_HUNT` nor an input (R39). -/
theorem statusWord_clocked_resetRegisters (s : State) :
    (s.clocked (resetRegisters s)).statusWord = State.reset.statusWord := rfl

/-- Settles O4: `rst` alone selects row 1, which writes R33's values over any state. -/
theorem resetOperation : Obligations.ResetOperation := by
  have hsel (s : State) : s.runs .reset ↔ s.pins.rst = true := runs_iff_selects
  obtain ⟨-, -, -, -, hstatus, -⟩ := statusViewLayout
  refine ⟨rfl, hsel, fun _ _ _ _ _ _ _ _ _ => ⟨[], rfl, Memory.read_nil⟩, fun _ => accepts_of_rst,
    fun _ _ hst h => (step_leaves_stopped_iff hst h).1,
    fun s t u hrst ht hrst' hu => sameRegisters_of_reset_twice ((hsel s).2 hrst) ht ((hsel t).2 hrst') hu,
    fun s t hrst h => ?_⟩
  obtain rfl := step_of_runs_reset ((hsel s).2 hrst) h
  rw [statusWord_clocked_resetRegisters, hstatus]

end Sys2Proof.Machine
end
